-- ==== Sys2Proof/Word.lean ====
section
/-! DEFINITION. The word types of the engine: Word, Byte, Block (rules R6, R11, R72 of spec/). -/

namespace Sys2Proof

/-- R6: "an unsigned integer of exactly `n` bits". Bit `i` of a Word is `w.getLsbD i`; bit 0 is the least
significant one. No signed reading of a Word exists anywhere in the engine. -/
abbrev Word (n : Nat) := BitVec n

/-- R72: the command byte of a command beat, `opcode[7:0]`. -/
abbrev Byte := BitVec 8

/-- R11: "an ordered pair `(x, y)` of two Words"; `x` is the first component. -/
abbrev Block (n : Nat) := Word n × Word n

end Sys2Proof
end

