-- ==== Sys2Proof/Config.lean ====
section
/-! DEFINITION. What is fixed for one engine and what nothing fixes: the five construction parameters (R2), the
published tuples the spec lists (93_implementation_defined.md GK2), the instance that State.reset is built for
(log entry 1), and the free values that a reset leaves in the scratch registers (log entry 4). -/

namespace Sys2Proof

/-- R2: the five natural numbers an engine instance is built for. Not every tuple defines an engine: which do is
checked in WellFormed.lean (R3, R4). -/
structure ParamTuple where
  /-- `n`, the word width in bits -/
  n : Nat
  /-- `m`, the number of key words -/
  m : Nat
  /-- `T`, the number of rounds -/
  T : Nat
  /-- `a`, the right-rotation amount -/
  a : Nat
  /-- `b`, the left-rotation amount -/
  b : Nat
  deriving DecidableEq, Repr

/-- R3: the number of bits needed to write `v` in unsigned binary; `width 0 = 0`. -/
def width (v : Nat) : Nat := if v = 0 then 0 else v.log2 + 1

/-- The registers whose contents a reset event or a successful CLEAR leaves unspecified and that are Words
(R37; `RC`, a number, is beside them). -/
inductive ScratchWord where
  | L (j : Nat)
  | K
  | RK (j : Nat)
  | X
  | Y
  deriving DecidableEq, Repr

namespace Config

/-- FREE VALUE, log entry 4 (R37, R151, R190: "unspecified"): the Word that the `draw`-th reset leaves in a scratch
register of an `n`-bit engine. It has no body, so nothing can be proved of it. It is applied to the old
contents too, so that not even "a reset erases" can be proved (N22: "Do not assume CLEAR erases key material"). -/
opaque freeWord (n draw : Nat) (register : ScratchWord) (old : Word n) : Word n

/-- FREE VALUE, log entry 4: the number that the `draw`-th reset leaves in the round counter, before it is cut
down to the counter's range `0 .. T` (R23). -/
opaque freeCount (draw old : Nat) : Nat

/-- GK2: Speck32/64. -/
def speck32_64 : ParamTuple := ⟨16, 4, 22, 7, 2⟩
/-- GK2: Speck48/72. -/
def speck48_72 : ParamTuple := ⟨24, 3, 22, 8, 3⟩
/-- GK2: Speck48/96. -/
def speck48_96 : ParamTuple := ⟨24, 4, 23, 8, 3⟩
/-- GK2: Speck64/96. -/
def speck64_96 : ParamTuple := ⟨32, 3, 26, 8, 3⟩
/-- GK2: Speck64/128. -/
def speck64_128 : ParamTuple := ⟨32, 4, 27, 8, 3⟩
/-- GK2: Speck96/96. -/
def speck96_96 : ParamTuple := ⟨48, 2, 28, 8, 3⟩
/-- GK2: Speck96/144. -/
def speck96_144 : ParamTuple := ⟨48, 3, 29, 8, 3⟩
/-- GK2: Speck128/128. -/
def speck128_128 : ParamTuple := ⟨64, 2, 32, 8, 3⟩
/-- GK2: Speck128/192. -/
def speck128_192 : ParamTuple := ⟨64, 3, 33, 8, 3⟩
/-- GK2: Speck128/256. -/
def speck128_256 : ParamTuple := ⟨64, 4, 34, 8, 3⟩

/-- The ten published tuples of GK2 (PRESUMED, log entry 12). No definition of the machine uses this list. -/
def published : List ParamTuple :=
  [speck32_64, speck48_72, speck48_96, speck64_96, speck64_128,
   speck96_96, speck96_144, speck128_128, speck128_192, speck128_256]

/-- DESIGN CHOICE, log entry 1: the instance that State.reset is the reset state OF. Nothing else in the
model uses it: every operation and every statement is for an arbitrary valid tuple. -/
def built : ParamTuple := speck32_64

end Config
end Sys2Proof
end

