-- ==== Sys2Proof/Syntax.lean ====
section
/-! DEFINITION. The engine's syntax: the six commands (R77), the input events (R70 to R72), the responses
(R73, R74), packets (R75) and assembly lines (R81). -/

namespace Sys2Proof

/-- R77: the six commands, one constructor per row of spec/opcode_table.json, in the table's order. Format C has no
operand field (R72, R84), so no constructor has an argument: a command's operands are the Words staged before it. -/
inductive Instr where
  | ksched
  | enc
  | enck
  | round
  | status
  | clear
  deriving DecidableEq, Repr

/-- R70: one input event of an engine with `n`-bit Words. -/
inductive Event (n : Nat) where
  /-- format D (R71): an operand for the next command -/
  | data (w : Word n)
  /-- format C (R72): perform a command on the operands staged so far -/
  | command (c : Byte)
  /-- the reset event (R190) -/
  | reset
  deriving DecidableEq, Repr

/-- R74: the status codes the engine emits. Code 3 is reserved and never emitted, so it has no constructor. -/
inductive Status where
  | ok
  | shapeMismatch
  | illegal
  deriving DecidableEq, Repr

/-- R73: a response packet, a status code followed by Words. -/
structure Response (n : Nat) where
  status : Status
  words : List (Word n)
  deriving DecidableEq, Repr

/-- R75: a packet, the data beats received since the previous command beat and the command beat that ends them.
The opcode is kept as a byte, because a packet may carry a reserved one. -/
structure Packet (n : Nat) where
  payload : List (Word n)
  opcode : Byte
  deriving DecidableEq, Repr

/-- R81: one line of assembly. Words are the numbers the hexadecimal literals denote. -/
inductive AsmLine where
  /-- `M w0, w1, ...` -/
  | command (i : Instr) (ws : List Nat)
  /-- `.reset` -/
  | reset
  /-- `.byte c` -/
  | byte (c : Nat)
  /-- `.data w0, w1, ...` -/
  | data (ws : List Nat)
  /-- an empty line, or a line that holds only a comment -/
  | blank
  deriving DecidableEq, Repr

end Sys2Proof
end

