-- ==== Sys2Proof/WellFormed.lean ====
section
/-! DEFINITION. The checks: which parameter tuples define an engine (R3, R4, R5), and which assembly lines are
legal (R81). A command itself has no field to check, and a Word has its width by its type (R71, R169). -/

namespace Sys2Proof

/-- R3 (a), (b), (c) and R4: the tuple is valid. -/
def ParamTuple.wellFormed (t : ParamTuple) : Bool :=
  decide (2 ≤ t.m) && decide (22 ≤ t.T) && decide (width t.a ≤ t.n) && decide (width t.b ≤ t.n)
    && decide (t.T - 2 < 2 ^ t.n)

/-- R1, R2, R5: the parameters of a built engine. The proof field is the static rejection R5 and U6 ask for: a
tuple that is not valid has no value of this type, so it defines no engine. -/
structure CipherParameters extends ParamTuple where
  valid : toParamTuple.wellFormed = true
  deriving DecidableEq, Repr

namespace CipherParameters
variable (P : CipherParameters)

theorem bounds : 2 ≤ P.m ∧ 22 ≤ P.T ∧ width P.a ≤ P.n ∧ width P.b ≤ P.n ∧ P.T - 2 < 2 ^ P.n := by
  have h := P.valid
  simp only [ParamTuple.wellFormed, Bool.and_eq_true, decide_eq_true_eq] at h
  exact ⟨h.1.1.1.1, h.1.1.1.2, h.1.1.2, h.1.2, h.2⟩

theorem two_le_m : 2 ≤ P.m := P.bounds.1

theorem twentyTwo_le_T : 22 ≤ P.T := P.bounds.2.1

end CipherParameters

/-- R72, R84: format C has no operand field, so every command is well formed whatever the parameters are. -/
def Instr.wellFormed : Instr → Bool
  | .ksched | .enc | .enck | .round | .status | .clear => true

/-- R81: a literal of an `n`-bit engine has a value below `2^n`; `.byte` takes any 8-bit number. The count of Words
is not checked: "The assembler does **not** check that `j = cnt(M)`". -/
def AsmLine.wellFormed (n : Nat) : AsmLine → Bool
  | .command i ws => i.wellFormed && ws.all (· < 2 ^ n)
  | .reset => true
  | .byte c => decide (c < 256)
  | .data ws => ws.all (· < 2 ^ n)
  | .blank => true

end Sys2Proof
end

