-- ==== Sys2Proof/Decode.lean ====
section
/-! DEFINITION. Encodings: the opcode map as rows (R77), the decoder, total on every byte (R78), the encoder, the
wire codes of beats and responses (R70, R73, R74), and the cutting of an input stream into packets (R75). -/

namespace Sys2Proof

/-- One row of the opcode map: a command byte `c` is this row's when `c &&& mask = pattern`. -/
structure OpcodeRow where
  pattern : Byte
  mask : Byte
  instr : Instr
  deriving DecidableEq, Repr

/-- R77: "match value as listed, mask `0xFF`". -/
def opcodeMap : List OpcodeRow :=
  [⟨0x01, 0xFF, .ksched⟩, ⟨0x02, 0xFF, .enc⟩, ⟨0x03, 0xFF, .enck⟩,
   ⟨0x04, 0xFF, .round⟩, ⟨0x05, 0xFF, .status⟩, ⟨0x06, 0xFF, .clear⟩]

/-- What a command byte stands for: a command, or a reserved value, rejected by name (R78). -/
inductive Decoded where
  | instr (i : Instr)
  | reserved (c : Byte)
  deriving DecidableEq, Repr

/-- R76, R78: decoding is total; a byte that no row of the opcode map has is reserved. -/
def decode (c : Byte) : Decoded :=
  match opcodeMap.find? (fun r => c &&& r.mask == r.pattern) with
  | some r => .instr r.instr
  | none => .reserved c

/-- R77: the command byte of each command. -/
def encode : Instr → Byte
  | .ksched => 0x01
  | .enc => 0x02
  | .enck => 0x03
  | .round => 0x04
  | .status => 0x05
  | .clear => 0x06

/-- The host's view of the decoder: a command is one 8-bit beat (R79), so the instruction of a table word is what
its first byte decodes to, and bits at or above `nbits` are zero. -/
def decodeTableWord (nbits w : Nat) : Option Instr :=
  match decode (BitVec.ofNat 8 (w % 2 ^ nbits)) with
  | .instr i => some i
  | .reserved _ => none

/-- R70: the one-bit sideband tag, `0` for data and `1` for command; the reset event is no beat. -/
def Event.tag {n : Nat} : Event n → Option (BitVec 1)
  | .data _ => some 0
  | .command _ => some 1
  | .reset => none

/-- R74: the 2-bit status codes. -/
def Status.code : Status → BitVec 2
  | .ok => 0
  | .shapeMismatch => 1
  | .illegal => 2

/-- R74: what a status code stands for. Code 3 is reserved (U4: a host that receives it "is outside this spec"). -/
def Status.ofCode (c : BitVec 2) : Option Status :=
  if c = 0 then some .ok else if c = 1 then some .shapeMismatch else if c = 2 then some .illegal else none

/-- R73: format R, `status[1:0]` followed by the Words. -/
def Response.wire {n : Nat} (r : Response n) : BitVec 2 × List (Word n) := (r.status.code, r.words)

/-- A response packet (R73) read back. The spec gives no reading: this one takes any number of Words and has none for the
reserved code of R74 (DESIGN CHOICE, log entry 6). -/
def Response.ofWire {n : Nat} (w : BitVec 2 × List (Word n)) : Option (Response n) :=
  (Status.ofCode w.1).map fun st => ⟨st, w.2⟩

/-- R75: a packet is "a run of zero or more data beats ended by one command beat". -/
def Packet.events {n : Nat} (p : Packet n) : List (Event n) := p.payload.map .data ++ [.command p.opcode]

/-- R75: the packets of a stream of beats, where `staged` are the data beats since the last command beat. A reset event
drops what is staged (R191). Data beats after the last command beat belong to no packet yet. The packets are those of the
stream: what the engine takes as payload is this cut off at `m + 3` Words (R63, pushOperand). -/
def packetsFrom {n : Nat} (staged : List (Word n)) : List (Event n) → List (Packet n)
  | [] => []
  | .data w :: rest => packetsFrom (staged ++ [w]) rest
  | .command c :: rest => ⟨staged, c⟩ :: packetsFrom [] rest
  | .reset :: rest => packetsFrom [] rest

end Sys2Proof
end

