-- ==== Sys2Proof/Machine/State.lean ====
section
/-! DEFINITION. The state of the machine as plain data: the spec's own record of the engine (10_state.md), the
instance's parameters, and the two streams of the interface; its reset values (R37); why a step could stop. -/

namespace Sys2Proof.Machine

/-- The engine's state, element by element as 10_state.md lists it, for the instance `P`. The last field is the
model's own. -/
structure EngineState (P : CipherParameters) where
  /-- R21: the L-queue, `L[0]` the front and `L[m-2]` the back (the oldest entry) -/
  L : Vector (Word P.n) (P.m - 1)
  /-- R22: the current round key word of the key-schedule register -/
  K : Word P.n
  /-- R23: the round counter, a number in `0 .. T` (the bound is part of Safety.Inv, log entry 8) -/
  RC : Nat
  /-- R24: the round-key store -/
  RK : Vector (Word P.n) P.T
  /-- R25: round keys valid -/
  RKV : Bool
  /-- R26: the first component of the current block -/
  X : Word P.n
  /-- R26: the second component of the current block -/
  Y : Word P.n
  /-- R27: the operand queue in arrival order, of at most `m + 3` Words (the bound is part of Safety.Inv, log
  entry 8) -/
  OPQ : List (Word P.n)
  /-- R28: a ShapeMismatch was raised since the last CLEAR or reset -/
  SHAPE : Bool
  /-- R29: an IllegalCommand was raised since the last CLEAR or reset -/
  ILL : Bool
  /-- THE MODEL'S OWN, log entry 4: how many resets have drawn free values so far -/
  draws : Nat
  deriving DecidableEq, Repr

/-- The machine: the built engine and its interface. -/
structure State where
  /-- R2: the parameters the engine was built for. No step writes them (log entry 2). -/
  P : CipherParameters
  /-- the engine's own state (10_state.md) -/
  engine : EngineState P
  /-- R70: the input events that have not been taken yet, next one first (log entry 3) -/
  input : List (Event P.n)
  /-- R64: the response packets emitted so far, first one first (log entry 3) -/
  output : List (Response P.n)
  deriving DecidableEq, Repr

/-- Why the machine could stop with a fault: there is no reason. R76: "`step` is total: every event in every state
has exactly one outcome"; R171: "Nothing else fails". The engine's two exceptions (R160) are outcomes of a
command, so they are next states. Nobody raises a fault; safe (DEDUCED, log entry 9). -/
inductive Fault where
  deriving DecidableEq, Repr

/-- Why the machine could give an instruction no meaning. -/
inductive Refusal where
  /-- Raised by an arm of exec that has no meaning yet, with the instruction's mnemonic; safe. No arm raises it. -/
  | notModelled (mnemonic : String)
  deriving DecidableEq, Repr

/-- R37, R191: the engine as it comes out of power-up. `RKV`, `SHAPE`, `ILL` and `OPQ` are the spec's; the zeros of
`L`, `K`, `RC`, `RK`, `X`, `Y` are the model's, log entry 5 (DESIGN CHOICE: the spec says "unspecified"). -/
def EngineState.powerUp (P : CipherParameters) : EngineState P where
  L := Vector.replicate (P.m - 1) 0
  K := 0
  RC := 0
  RK := Vector.replicate P.T 0
  RKV := false
  X := 0
  Y := 0
  OPQ := []
  SHAPE := false
  ILL := false
  draws := 0

/-- The machine right after reset, for any instance: no event is pending and no response has been emitted. -/
def State.resetOf (P : CipherParameters) : State := ⟨P, EngineState.powerUp P, [], []⟩

/-- The machine right after reset, for the instance of log entry 1. -/
def State.reset : State := State.resetOf ⟨Config.built, by decide⟩

end Sys2Proof.Machine
end

