-- ==== Sys2Proof/Machine/Flags.lean ====
section
/-! DEFINITION. The three flags: the STATUS view of them (R30, R150) and the sticky bit an exception sets (R160).
No arithmetic operation sets a flag (R93). -/

namespace Sys2Proof.Machine

variable {P : CipherParameters}

/-- R30: `STATUS = zext_n(RKV + 2·SHAPE + 4·ILL)`. -/
def statusWord (e : EngineState P) : Word P.n :=
  BitVec.ofNat P.n (e.RKV.toNat + 2 * e.SHAPE.toNat + 4 * e.ILL.toNat)

/-- R160: the two synchronous exceptions. -/
inductive EngineException where
  | shapeMismatch
  | illegalCommand
  deriving DecidableEq, Repr

/-- R160: the status code each exception is reported with. -/
def EngineException.status : EngineException → Status
  | .shapeMismatch => .shapeMismatch
  | .illegalCommand => .illegal

/-- R160, R164: the sticky flag each exception sets; the other one keeps its value. -/
def setSticky (x : EngineException) (e : EngineState P) : EngineState P :=
  match x with
  | .shapeMismatch => { e with SHAPE := true }
  | .illegalCommand => { e with ILL := true }

end Sys2Proof.Machine
end

