-- ==== Sys2Proof/Machine/Operands.lean ====
section
/-! DEFINITION. Operands: how many Words each command takes and returns (R77), where each operand stands in the
payload (R53, R77, R84), and the two forms of access to the L-queue (R21, R110, R111). -/

namespace Sys2Proof.Machine

/-- R77: `cnt`, the number of Words a command's payload must have. -/
def cnt (P : CipherParameters) : Instr → Nat
  | .ksched => P.m
  | .enc => 2
  | .enck => P.m + 2
  | .round => 3
  | .status => 0
  | .clear => 0

/-- R77: the number of data words of a command's `OK` response. -/
def responseCount (P : CipherParameters) : Instr → Nat
  | .ksched => P.T
  | .enc => 2
  | .enck => 2
  | .round => 2
  | .status => 1
  | .clear => 0

/-- R27: `QCAP`, the capacity of the operand queue. -/
def queueCapacity (P : CipherParameters) : Nat := P.m + 3

/-- R12: a Key, exactly `m` Words, `Key[0]` first. -/
abbrev Key (P : CipherParameters) := Vector (Word P.n) P.m

/-- R21: the logical contents of the L-queue. -/
abbrev LQueue (P : CipherParameters) := Vector (Word P.n) (P.m - 1)

variable {P : CipherParameters}

/-- R110: the last Key word, the initial round key `k_0`. -/
def Key.last (key : Key P) : Word P.n := key[P.m - 1]'(by have := P.two_le_m; omega)

/-- R110: the first `m-1` Key words, `Key[0]` at the front and `Key[m-2]` at the back. -/
def Key.queue (key : Key P) : LQueue P := ⟨(key.toList.take (P.m - 1)).toArray, by simp⟩

/-- R21, R111: the back of the queue, `L[m-2]`, its oldest entry. -/
def LQueue.oldest (q : LQueue P) : Word P.n := q[P.m - 2]'(by have := P.two_le_m; omega)

/-- R111: every entry moves one place toward the back, the old back entry is evicted, `w` is the new front. -/
def LQueue.push (q : LQueue P) (w : Word P.n) : LQueue P :=
  ⟨(w :: q.toList.dropLast).toArray, by have := P.two_le_m; simp; omega⟩

/-- R77: the Key at the start of ENCK's payload, `p[0 .. m-1]`. -/
def keyOfPayload (p : Vector (Word P.n) (P.m + 2)) : Key P := ⟨(p.toList.take P.m).toArray, by simp⟩

/-- R77: the Block at the end of ENCK's payload, `(p[m], p[m+1])`. -/
def blockOfPayload (p : Vector (Word P.n) (P.m + 2)) : Block P.n := (p[P.m], p[P.m + 1])

end Sys2Proof.Machine
end

