-- ==== Sys2Proof/Machine/Ops.lean ====
section
/-! DEFINITION. The shared operations: Word arithmetic (R7 to R10), the response (R64), taking an exception (R164),
the taking and counting of a payload (R75, R76), the data beat (R63), the reset event (R190). -/

namespace Sys2Proof.Machine

/-! ### Word arithmetic -/

section
variable {n : Nat}

/-- R7: `(u + v) mod 2^n`; the carry is discarded and recorded nowhere. -/
def add (u v : Word n) : Word n := BitVec.ofNat n (u.toNat + v.toNat)

/-- R7: `(u - v) mod 2^n`, used in the inverse property only. -/
def sub (u v : Word n) : Word n := u - v

/-- R9: the bitwise exclusive or. -/
def xor (u v : Word n) : Word n := u ^^^ v

/-- R10: `word(i) = i mod 2^n`. -/
def word (n i : Nat) : Word n := BitVec.ofNat n i

/-- R8: rotate-left, `((w · 2^s) mod 2^n) + floor(w / 2^(n-s))` with `s = r mod n`. -/
def rotl (w : Word n) (r : Nat) : Word n :=
  BitVec.ofNat n ((w.toNat * 2 ^ (r % n)) % 2 ^ n + w.toNat / 2 ^ (n - r % n))

/-- R8: rotate-right, `floor(w / 2^s) + (w mod 2^s) · 2^(n-s)` with `s = r mod n`. -/
def rotr (w : Word n) (r : Nat) : Word n :=
  BitVec.ofNat n (w.toNat / 2 ^ (r % n) + (w.toNat % 2 ^ (r % n)) * 2 ^ (n - r % n))

end

/-! ### One command on the engine -/

variable {P : CipherParameters}

/-- R64: `Respond(st, ws)`, beside the engine state the command leaves. -/
def respond (st : Status) (ws : List (Word P.n)) (e : EngineState P) : EngineState P × Response P.n := (e, ⟨st, ws⟩)

/-- R164, TAKING AN EXCEPTION: the sticky flag is set, the response carries the code and no Word, and nothing else
is written. R162: nothing is saved and control goes nowhere. R166: there is no return from an exception, since
the engine is in an ordinary state afterwards and takes the next event. -/
def raise (x : EngineException) (e : EngineState P) : EngineState P × Response P.n :=
  respond x.status [] (setSticky x e)

/-- R75: a command beat takes the whole operand queue and leaves it empty. -/
def takePayload (e : EngineState P) : EngineState P := { e with OPQ := [] }

/-- R75, R76, R161(a): the payload is taken; if it has exactly `want` Words the command's body runs on it, and if not
ShapeMismatch is raised before any register is written. -/
def onPayload (want : Nat)
    (body : Vector (Word P.n) want → EngineState P → EngineState P × Response P.n)
    (e : EngineState P) : EngineState P × Response P.n :=
  if h : e.OPQ.length = want then body ⟨e.OPQ.toArray, by simpa using h⟩ (takePayload e)
  else raise .shapeMismatch (takePayload e)

/-- R63: the data beat. A Word that finds the queue full is dropped; one that finds a queue longer than that,
which no run reaches, is dropped too (DESIGN CHOICE, log entry 8). -/
def pushOperand (w : Word P.n) (e : EngineState P) : EngineState P :=
  if e.OPQ.length < queueCapacity P then { e with OPQ := e.OPQ ++ [w] } else e

/-- R37, R151, R190: the reset state, entered by the reset event and by a successful CLEAR. The flags are 0 and the
queue is empty; each scratch register takes a free value (log entry 4), and the counter one within its range. -/
def resetEngine (e : EngineState P) : EngineState P where
  L := Vector.ofFn fun j => Config.freeWord P.n e.draws (.L j) e.L[j]
  K := Config.freeWord P.n e.draws .K e.K
  RC := Config.freeCount e.draws e.RC % (P.T + 1)
  RK := Vector.ofFn fun j => Config.freeWord P.n e.draws (.RK j) e.RK[j]
  RKV := false
  X := Config.freeWord P.n e.draws .X e.X
  Y := Config.freeWord P.n e.draws .Y e.Y
  OPQ := []
  SHAPE := false
  ILL := false
  draws := e.draws + 1

/-- R163, R78: a command beat with a reserved opcode; the payload is discarded without being counted (R167). -/
def illegalCommand (e : EngineState P) : EngineState P × Response P.n := raise .illegalCommand (takePayload e)

/-! ### The machine around the engine -/

/-- R64: a command runs to completion on the engine and its one response leaves after the earlier ones. -/
def State.perform (s : State)
    (command : EngineState s.P → EngineState s.P × Response s.P.n) : State :=
  { s with engine := (command s.engine).1, output := s.output ++ [(command s.engine).2] }

/-- R63, R190: an event that emits no response. -/
def State.absorb (s : State) (event : EngineState s.P → EngineState s.P) : State :=
  { s with engine := event s.engine }

/-- R20, R70: the host sends further events; they arrive after the pending ones. -/
def State.send (s : State) (events : List (Event s.P.n)) : State := { s with input := s.input ++ events }

end Sys2Proof.Machine
end

