-- ==== Sys2Proof/Machine/RoundFunction.lean ====
section
/-! DEFINITION. The round function (R90), its inverse as a property only (R95), and ROUND (R97). -/

namespace Sys2Proof.Machine

/-- R90, R92: the one round function, `x' = ((x rotate-right a) + y) xor k`, `y' = (y rotate-left b) xor x'`. -/
def Rk (P : CipherParameters) (k : Word P.n) (block : Block P.n) : Block P.n :=
  let x' := xor (add (rotr block.1 P.a) block.2) k
  (x', xor (rotl block.2 P.b) x')

/-- R95: the inverse of `Rk k`. A property for testing `Rk`; no operation of the engine uses it (R15). -/
def RkInv (P : CipherParameters) (k : Word P.n) (block : Block P.n) : Block P.n :=
  let y := rotr (xor block.2 block.1) P.b
  (rotl (sub (xor block.1 k) y) P.a, y)

variable {P : CipherParameters}

/-- R97: ROUND on a payload `k, x, y`. -/
def roundCommand : EngineState P → EngineState P × Response P.n :=
  onPayload 3 fun p e =>
    let block := Rk P p[0] (p[1], p[2])
    respond .ok [block.1, block.2] e

/-- R97: ROUND. -/
def execRound (s : State) : Host.Outcome State Fault Refusal := .next (s.perform roundCommand)

end Sys2Proof.Machine
end

