-- ==== Sys2Proof/Machine/KeySchedule.lean ====
section
/-! DEFINITION. The key-schedule generator: the function KeySchedule as a recurrence with no registers (R112), the
micro-steps KS.LOAD and KS.STEP on the engine's registers (R110, R111), and KSCHED (R117). -/

namespace Sys2Proof.Machine

variable {P : CipherParameters}

/-! ### The function -/

/-- R112: one transition of the recurrence on `(λ_i, k_i)`, giving `(λ_{i+1}, k_{i+1})`. -/
def scheduleStep (i : Nat) (q : LQueue P) (k : Word P.n) : LQueue P × Word P.n :=
  let r := Rk P (word P.n i) (LQueue.oldest q, k)
  (LQueue.push q r.1, r.2)

/-- R112: `k_i, k_{i+1}, ...` for `count` transitions, one word harvested from each state including the first. -/
def scheduleFrom (i : Nat) (q : LQueue P) (k : Word P.n) : Nat → List (Word P.n)
  | 0 => [k]
  | count + 1 => k :: scheduleFrom (i + 1) (scheduleStep i q k).1 (scheduleStep i q k).2 count

/-- R112: the RoundKeySequence `[k_0, k_1, ..., k_{T-1}]` of a Key; the recurrence runs `T-1` times from `k_0`. -/
def keySchedule (key : Key P) : List (Word P.n) := scheduleFrom 0 (Key.queue key) (Key.last key) (P.T - 1)

/-! ### The registers -/

/-- R110: `KS.LOAD`. -/
def ksLoad (key : Key P) (e : EngineState P) : EngineState P :=
  { e with
    L := Key.queue key
    K := Key.last key
    RK := e.RK.set 0 (Key.last key) (by have := P.twentyTwo_le_T; omega)
    RC := 0 }

/-- R111: `KS.STEP`, enabled when `RC = i` with `0 ≤ i ≤ T-2`; all right sides use the values before the step.
Where it is not enabled, which no command reaches, it changes nothing (DESIGN CHOICE, log entry 7). -/
def ksStep (e : EngineState P) : EngineState P :=
  if h : e.RC + 1 < P.T then
    let r := Rk P (word P.n e.RC) (LQueue.oldest e.L, e.K)
    { e with
      L := LQueue.push e.L r.1
      K := r.2
      RK := e.RK.set (e.RC + 1) r.2 h
      RC := e.RC + 1 }
  else e

/-- R117, R135: KS.LOAD, then KS.STEP `T-1` times, then `RKV <- 1`. -/
def deriveKeys (key : Key P) (e : EngineState P) : EngineState P :=
  { ksStep^[P.T - 1] (ksLoad key e) with RKV := true }

/-- R117: KSCHED on a payload that is a Key. -/
def kschedCommand : EngineState P → EngineState P × Response P.n :=
  onPayload P.m fun key e =>
    let e' := deriveKeys key e
    respond .ok e'.RK.toList e'

/-- R117: KSCHED. -/
def execKsched (s : State) : Host.Outcome State Fault Refusal := .next (s.perform kschedCommand)

end Sys2Proof.Machine
end

