-- ==== Sys2Proof/Machine/Encryptor.lean ====
section
/-! DEFINITION. The encryptor: the functions EncryptRounds and Encrypt (R130, R133), the micro-steps ENC.LOAD and
ENC.STEP (R131, R132), ENC (R134) and ENCK (R135). -/

namespace Sys2Proof.Machine

variable {P : CipherParameters}

/-! ### The functions -/

/-- R130: fold the round function over the round keys, in order, starting from the plaintext Block. -/
def encryptRounds (P : CipherParameters) (keys : List (Word P.n)) (block : Block P.n) : Block P.n :=
  keys.foldl (fun b k => Rk P k b) block

/-- R133: `Encrypt(κ, P) = EncryptRounds(KeySchedule(κ), P)`. -/
def encrypt (key : Key P) (block : Block P.n) : Block P.n := encryptRounds P (keySchedule key) block

/-! ### The registers -/

/-- R131: `ENC.LOAD`. -/
def encLoad (block : Block P.n) (e : EngineState P) : EngineState P :=
  { e with X := block.1, Y := block.2, RC := 0 }

/-- R132: `ENC.STEP`, enabled when `RC = j` with `0 ≤ j ≤ T-1` and `RKV = 1`; both Words from the old `X` and `Y`.
Where it is not enabled, which no command reaches, it changes nothing (DESIGN CHOICE, log entry 7). -/
def encStep (e : EngineState P) : EngineState P :=
  if h : e.RC < P.T ∧ e.RKV = true then
    let block := Rk P (e.RK[e.RC]'h.1) (e.X, e.Y)
    { e with X := block.1, Y := block.2, RC := e.RC + 1 }
  else e

/-- R134, R135: ENC.LOAD, then ENC.STEP `T` times, then `Respond(OK, [X, Y])`. -/
def encryptBlock (block : Block P.n) (e : EngineState P) : EngineState P × Response P.n :=
  let e' := encStep^[P.T] (encLoad block e)
  respond .ok [e'.X, e'.Y] e'

/-- R134: ENC on a payload `x, y`; without a round-key sequence it raises ShapeMismatch (R161(b)). -/
def encCommand : EngineState P → EngineState P × Response P.n :=
  onPayload 2 fun p e =>
    if e.RKV then encryptBlock (p[0], p[1]) e else raise .shapeMismatch e

/-- R134: ENC. -/
def execEnc (s : State) : Host.Outcome State Fault Refusal := .next (s.perform encCommand)

/-- R135: ENCK on a payload that is a Key followed by a Block. -/
def enckCommand : EngineState P → EngineState P × Response P.n :=
  onPayload (P.m + 2) fun p e => encryptBlock (blockOfPayload p) (deriveKeys (keyOfPayload p) e)

/-- R135: ENCK. -/
def execEnck (s : State) : Host.Outcome State Fault Refusal := .next (s.perform enckCommand)

end Sys2Proof.Machine
end

