-- ==== Sys2Proof/Machine/System.lean ====
section
/-! DEFINITION. The system commands STATUS (R150) and CLEAR (R151). -/

namespace Sys2Proof.Machine

variable {P : CipherParameters}

/-- R150: STATUS reads the flags and clears none of them. -/
def statusCommand : EngineState P → EngineState P × Response P.n :=
  onPayload 0 fun _ e => respond .ok [statusWord e] e

/-- R150: STATUS. -/
def execStatus (s : State) : Host.Outcome State Fault Refusal := .next (s.perform statusCommand)

/-- R151: CLEAR enters the reset state and responds `OK` with no Word. -/
def clearCommand : EngineState P → EngineState P × Response P.n :=
  onPayload 0 fun _ e => respond .ok [] (resetEngine e)

/-- R151: CLEAR. -/
def execClear (s : State) : Host.Outcome State Fault Refusal := .next (s.perform clearCommand)

end Sys2Proof.Machine
end

