-- ==== Sys2Proof/Machine/Dispatch.lean ====
section
/-! DEFINITION. One arm per command (R76, R77). -/

namespace Sys2Proof.Machine

/-- R76: perform a command on the Words staged in the operand queue. -/
def exec (i : Instr) (s : State) : Host.Outcome State Fault Refusal :=
  match i with
  | .ksched => Sys2Proof.Machine.execKsched s
  | .enc => Sys2Proof.Machine.execEnc s
  | .enck => Sys2Proof.Machine.execEnck s
  | .round => Sys2Proof.Machine.execRound s
  | .status => Sys2Proof.Machine.execStatus s
  | .clear => Sys2Proof.Machine.execClear s

end Sys2Proof.Machine
end

