-- ==== Sys2Proof/Machine/Step.lean ====
section
/-! DEFINITION. The step function (R76): one input event, taken whole (R197). -/

namespace Sys2Proof.Machine

/-- R76: take the next input event. With none pending the engine is idle and its state persists (R177, R200). -/
def step (s : State) : Host.Outcome State Fault Refusal :=
  match s.input with
  | [] => .next s
  | .data w :: rest => .next (State.absorb { s with input := rest } (pushOperand w))
  | .command c :: rest =>
    match decode c with
    | .instr i => exec i { s with input := rest }
    | .reserved _ => .next (State.perform { s with input := rest } illegalCommand)
  | .reset :: rest => .next (State.absorb { s with input := rest } resetEngine)

/-- The host's way to place an instruction: the command beat of the table word arrives next, before whatever is
pending (log entry 3). Nothing else of the state changes. -/
def State.withFetchWord (s : State) (nbits w : Nat) : State :=
  { s with input := .command (BitVec.ofNat 8 (w % 2 ^ nbits)) :: s.input }

end Sys2Proof.Machine
end

