-- ==== Sys2Proof/Machine/Assembler.lean ====
section
/-! DEFINITION. The notations of 30_encoding.md section 6, on lists of characters: assembly lines (R81), events and
responses (R82). There is no toolchain and the engine itself reads neither (log entry 6). -/

namespace Sys2Proof.Machine

/-! ### Hexadecimal numbers -/

/-- R82: `ceil(n/4)`, the number of hex digits of a Word. -/
def hexWidth (n : Nat) : Nat := (n + 3) / 4

/-- The value of one hex digit, in either case. -/
def hexValue (c : Char) : Option Nat :=
  let v := c.toNat
  if 48 ≤ v ∧ v ≤ 57 then some (v - 48)
  else if 97 ≤ v ∧ v ≤ 102 then some (v - 87)
  else if 65 ≤ v ∧ v ≤ 70 then some (v - 55)
  else none

/-- `v` in exactly `k` hex digits, most significant digit first (00_scope.md section 5). -/
def renderHex : Nat → Nat → List Char
  | 0, _ => []
  | k + 1, v => renderHex k (v / 16) ++ [Nat.digitChar (v % 16)]

/-- The number that hex digits denote, most significant first, read after `acc`. -/
def readHexFrom (acc : Nat) : List Char → Option Nat
  | [] => some acc
  | c :: cs => match hexValue c with
    | some v => readHexFrom (16 * acc + v) cs
    | none => none

/-- The number that a row of hex digits denotes. -/
def readHex (cs : List Char) : Option Nat := readHexFrom 0 cs

/-- Hex digits read as a Word: exactly `k` digits, with a value below `2^n`. -/
def readWord (n k : Nat) (cs : List Char) : Option (Word n) :=
  if cs.length = k then
    match readHex cs with
    | some v => if v < 2 ^ n then some (BitVec.ofNat n v) else none
    | none => none
  else none

/-! ### Events and responses (R82) -/

/-- R82: `D:<hex>`, `C:<2 hex digits>`, `RST`. -/
def renderEvent {n : Nat} : Event n → List Char
  | .data w => ['D', ':'] ++ renderHex (hexWidth n) w.toNat
  | .command c => ['C', ':'] ++ renderHex 2 c.toNat
  | .reset => ['R', 'S', 'T']

/-- R82: "a list of events", here with one space between them as in its example. -/
def renderEvents {n : Nat} : List (Event n) → List Char
  | [] => []
  | [ev] => renderEvent ev
  | ev :: rest => renderEvent ev ++ [' '] ++ renderEvents rest

/-- R82, read back. -/
def readEvent (n : Nat) : List Char → Option (Event n)
  | 'D' :: ':' :: ds => (readWord n (hexWidth n) ds).map .data
  | 'C' :: ':' :: ds => (readWord 8 2 ds).map .command
  | ['R', 'S', 'T'] => some .reset
  | _ => none

/-- R74: the names of the status codes. -/
def statusName : Status → List Char
  | .ok => ['O', 'K']
  | .shapeMismatch => ['S', 'H', 'A', 'P', 'E', '_', 'M', 'I', 'S', 'M', 'A', 'T', 'C', 'H']
  | .illegal => ['I', 'L', 'L', 'E', 'G', 'A', 'L']

/-- Items with a comma and a space between them. -/
def commaSeparated : List (List Char) → List Char
  | [] => []
  | [x] => x
  | x :: rest => x ++ [',', ' '] ++ commaSeparated rest

/-- R82: "`<status name>` followed by its Words in brackets". -/
def renderResponse {n : Nat} (r : Response n) : List Char :=
  statusName r.status ++ [' ', '['] ++ commaSeparated (r.words.map fun w => renderHex (hexWidth n) w.toNat) ++ [']']

/-! ### Assembly lines (R81) -/

/-- R77, R81: the mnemonics, upper case. -/
def mnemonic : Instr → List Char
  | .ksched => ['K', 'S', 'C', 'H', 'E', 'D']
  | .enc => ['E', 'N', 'C']
  | .enck => ['E', 'N', 'C', 'K']
  | .round => ['R', 'O', 'U', 'N', 'D']
  | .status => ['S', 'T', 'A', 'T', 'U', 'S']
  | .clear => ['C', 'L', 'E', 'A', 'R']

/-- R81, R83: the command a mnemonic names; there are no pseudo-instructions, so nothing else has a meaning. -/
def ofMnemonic (cs : List Char) : Option Instr :=
  [Instr.ksched, .enc, .enck, .round, .status, .clear].find? fun i => mnemonic i == cs

/-- Space and tab. -/
def isBlank (c : Char) : Bool := c == ' ' || c == '\t'

/-- Blanks at either end removed. -/
def trim (cs : List Char) : List Char := ((cs.dropWhile isBlank).reverse.dropWhile isBlank).reverse

/-- The pieces of a row of characters between its commas; `piece` is the one being read, reversed. -/
def splitCommas (piece : List Char) : List Char → List (List Char)
  | [] => [piece.reverse]
  | ',' :: cs => piece.reverse :: splitCommas [] cs
  | c :: cs => splitCommas (c :: piece) cs

/-- R81: a literal `0x...` of at most `ceil(n/4)` digits whose value is below `2^n`. -/
def readLiteral (n : Nat) (cs : List Char) : Option Nat :=
  match trim cs with
  | '0' :: 'x' :: ds =>
    if 1 ≤ ds.length ∧ ds.length ≤ hexWidth n then
      match readHex ds with
      | some v => if v < 2 ^ n then some v else none
      | none => none
    else none
  | _ => none

/-- Every piece read as a literal. -/
def readLiterals (n : Nat) : List (List Char) → Option (List Nat)
  | [] => some []
  | p :: ps => match readLiteral n p, readLiterals n ps with
    | some v, some vs => some (v :: vs)
    | _, _ => none

/-- R81: the payload Words of a line, "separated by commas"; there may be none. -/
def readOperands (n : Nat) (cs : List Char) : Option (List Nat) :=
  if (trim cs).isEmpty then some [] else readLiterals n (splitCommas [] cs)

/-- R81: one line of assembly; text after `;` is comment. What is no legal line has no reading. -/
def readLine (n : Nat) (line : List Char) : Option AsmLine :=
  let body := trim (line.takeWhile (· != ';'))
  let head := body.takeWhile fun c => !isBlank c
  let rest := body.dropWhile fun c => !isBlank c
  if body.isEmpty then some .blank
  else if head = ['.', 'r', 'e', 's', 'e', 't'] then
    if (trim rest).isEmpty then some .reset else none
  else if head = ['.', 'b', 'y', 't', 'e'] then (readLiteral 8 rest).map .byte
  else if head = ['.', 'd', 'a', 't', 'a'] then (readOperands n rest).map .data
  else match ofMnemonic head with
    | some i => (readOperands n rest).map (.command i)
    | none => none

/-- R81: the events a line assembles to. A wrong count of Words is not checked. -/
def assemble (n : Nat) : AsmLine → List (Event n)
  | .command i ws => ws.map (fun w => .data (BitVec.ofNat n w)) ++ [.command (encode i)]
  | .reset => [.reset]
  | .byte c => [.command (BitVec.ofNat 8 c)]
  | .data ws => ws.map fun w => .data (BitVec.ofNat n w)
  | .blank => []

end Sys2Proof.Machine
end

