-- ==== Sys2Proof/Safety.lean ====
section
/-! DEFINITION. The terms that claims are stated in: the invariant of the engine (R23, R27, R35), what the host can
observe (R34, R200), the events that replace or discard the key or the flags, and runs. -/

namespace Sys2Proof.Safety
open Sys2Proof.Machine

variable {P : CipherParameters}

/-- R35, the first clause R23 and the second R27: in every reachable state the counter is at most `T`, the queue holds
at most `m + 3` Words, and a valid round-key store is the key schedule of some Key. -/
structure EngineInv (e : EngineState P) : Prop where
  counter : e.RC ≤ P.T
  queue : e.OPQ.length ≤ queueCapacity P
  keys : e.RKV = true → ∃ key : Key P, e.RK.toList = keySchedule key

/-- The invariant of the machine. -/
def Inv (s : State) : Prop := EngineInv s.engine

/-- R34: two engine states that a host cannot tell apart. They agree on the flags and the operand queue, and on the
round-key store where it is valid; the scratch registers `L`, `K`, `RC`, `X`, `Y` are free to differ. -/
structure Indistinguishable (e f : EngineState P) : Prop where
  queue : e.OPQ = f.OPQ
  valid : e.RKV = f.RKV
  shape : e.SHAPE = f.SHAPE
  illegal : e.ILL = f.ILL
  keys : e.RKV = true → e.RK = f.RK

/-- R166: the error record is empty; "takes `SHAPE = 0 ∧ ILL = 0` at the end of a run as a premise or a
postcondition of its claims". -/
def NoRejection (e : EngineState P) : Prop := e.SHAPE = false ∧ e.ILL = false

/-- R25: the event is a KSCHED or ENCK that is accepted in the engine state `e`. -/
def derivesKeys (e : EngineState P) : Event P.n → Prop
  | .command c => (c = 0x01 ∧ e.OPQ.length = P.m) ∨ (c = 0x03 ∧ e.OPQ.length = P.m + 2)
  | .data _ => False
  | .reset => False

/-- R25, R28, R29: the event is the reset event, or a CLEAR that is accepted in the engine state `e`. -/
def resets (e : EngineState P) : Event P.n → Prop
  | .command c => c = 0x06 ∧ e.OPQ = []
  | .data _ => False
  | .reset => True

/-- R161: the event is a command beat that raises ShapeMismatch in the engine state `e`: a legal opcode with (a) a wrong
payload count, or (b) an ENC of two Words without valid round keys. -/
def raisesShape (e : EngineState P) : Event P.n → Prop
  | .command c => ∃ i, decode c = .instr i ∧
      (e.OPQ.length ≠ cnt P i ∨ (i = .enc ∧ e.RKV = false))
  | .data _ => False
  | .reset => False

/-- R163: the event is a command beat with an opcode other than `0x01 .. 0x06`. -/
def raisesIllegal : Event P.n → Prop
  | .command c => c = 0x00 ∨ 0x07 ≤ c.toNat
  | .data _ => False
  | .reset => False

/-- The machine after `k` steps; a fault or a refusal would end the run. The same runs as the host's Host.Core.run of
the machine (Laws/Step.lean, `run_eq_core_run`). -/
def run : Nat → State → Host.Outcome State Fault Refusal
  | 0, s => .next s
  | k + 1, s =>
    match step s with
    | .next t => run k t
    | .fault r => .fault r
    | .refused r => .refused r

/-- R26: the event is an ENC or ENCK that is accepted in the engine state `e`. -/
def encrypts (e : EngineState P) : Event P.n → Prop
  | .command c => (c = 0x02 ∧ e.OPQ.length = 2 ∧ e.RKV = true) ∨ (c = 0x03 ∧ e.OPQ.length = P.m + 2)
  | .data _ => False
  | .reset => False

end Sys2Proof.Safety
end

