-- ==== Sys2Proof/Certificates/Slice0/Obligations.lean ====
section
/-! DEFINITION. The statements about the engine. Unless it says otherwise, a statement is for EVERY valid parameter
tuple `P` (R2), every engine state `e`, every pending input `inp` and every earlier output `out`. A next state is
written out as the old one with the changed fields named, so each such equation is also the frame: every field that
it does not name, the pending events, the earlier responses and the parameters are as before. There is no byte of
memory to frame (R50); the round-key store is a field like the others. -/

open Sys2Proof Sys2Proof.Machine Sys2Proof.Safety

/-! ### Parameters -/

/-- R3, R4: the five conditions hold of the parameters of every built engine, and a tuple that meets them is the tuple
of some built engine; `width v` is the number of binary digits of `v`; the conditions force `n ≥ 5`. -/
def Obligations.BuiltEnginesAreTheValidTuples : Prop :=
  (∀ t : ParamTuple,
    (∃ P : CipherParameters, P.toParamTuple = t) ↔
      (2 ≤ t.m ∧ 22 ≤ t.T ∧ width t.a ≤ t.n ∧ width t.b ≤ t.n ∧ t.T - 2 < 2 ^ t.n)) ∧
  (width 0 = 0 ∧ ∀ v, 1 ≤ v → 2 ^ (width v - 1) ≤ v ∧ v < 2 ^ width v) ∧
  ∀ P : CipherParameters, 5 ≤ P.n

/-- R10: `word(i) = i mod 2^n`, and every index the key schedule uses as a round key is a Word without
truncation. -/
def Obligations.LoopIndexIsAWordWithoutTruncation : Prop :=
  ∀ (P : CipherParameters) (i : Nat),
    (word P.n i).toNat = i % 2 ^ P.n ∧ (i ≤ P.T - 2 → (word P.n i).toNat = i)

/-- R2, R31: no step writes the parameters. -/
def Obligations.NoStepChangesTheParameters : Prop :=
  ∀ s t : State, step s = .next t → t.P = s.P

/-! ### Word arithmetic and the round function -/

/-- R7, R9: addition and subtraction are modulo `2^n`; exclusive or is bit by bit. -/
def Obligations.AdditionWrapsAndXorIsBitwise : Prop :=
  ∀ (n : Nat) (u v : Word n),
    (add u v).toNat = (u.toNat + v.toNat) % 2 ^ n ∧
    ((sub u v).toNat : Int) = ((u.toNat : Int) - (v.toNat : Int)) % (2 : Int) ^ n ∧
    ∀ i, ((Machine.xor u v).getLsbD i).toNat = ((u.getLsbD i).toNat + (v.getLsbD i).toNat) % 2

/-- R8: `rotl` moves bit `i` to bit `(i + s) mod n` and `rotr` takes bit `i` from bit `(i + s) mod n`, with
`s = r mod n`; equivalently the two sums; with `s = 0` both return the Word. -/
def Obligations.RotationPermutesBits : Prop :=
  ∀ (n : Nat) (w : Word n) (r s : Nat), 0 < n → s = r % n →
    (∀ i, i < n →
      (rotl w r).getLsbD ((i + s) % n) = w.getLsbD i ∧ (rotr w r).getLsbD i = w.getLsbD ((i + s) % n)) ∧
    (rotl w r).toNat = (w.toNat * 2 ^ s) % 2 ^ n + w.toNat / 2 ^ (n - s) ∧
    (rotr w r).toNat = w.toNat / 2 ^ s + (w.toNat % 2 ^ s) * 2 ^ (n - s) ∧
    (s = 0 → rotl w r = w ∧ rotr w r = w)

/-- R94: the laws of rotation, for every width that is not zero. -/
def Obligations.RotationLaws : Prop :=
  ∀ (n : Nat) (u w : Word n) (r r' : Nat), 0 < n →
    rotl w 0 = w ∧ rotr w 0 = w ∧ rotl w n = w ∧ rotr w n = w ∧
    rotl w r = rotl w (r % n) ∧ rotr w r = rotr w (r % n) ∧
    rotr (rotl w r) r = w ∧ rotl (rotr w r) r = w ∧
    rotl w r = rotr w (n - r % n) ∧
    rotl (rotl w r) r' = rotl w (r + r') ∧
    rotl (u ^^^ w) r = rotl u r ^^^ rotl w r ∧
    rotl (0 : Word n) r = 0 ∧ rotr (0 : Word n) r = 0 ∧
    rotl (BitVec.allOnes n) r = BitVec.allOnes n ∧ rotr (BitVec.allOnes n) r = BitVec.allOnes n

/-- R90: the round function, `y'` from the new `x'`; addition is modulo `2^n`. -/
def Obligations.RoundFunctionFormula : Prop :=
  ∀ (P : CipherParameters) (k x y x' y' : Word P.n), Rk P k (x, y) = (x', y') →
    x'.toNat = ((rotr x P.a).toNat + y.toNat) % 2 ^ P.n ^^^ k.toNat ∧ y' = rotl y P.b ^^^ x'

/-- R95: for every round key, the round function and the formula for its inverse undo each other. -/
def Obligations.RoundFunctionIsReversible : Prop :=
  ∀ (P : CipherParameters) (k : Word P.n) (block : Block P.n),
    RkInv P k (Rk P k block) = block ∧ Rk P k (RkInv P k block) = block

/-- R96: the special values. -/
def Obligations.RoundFunctionSpecialValues : Prop :=
  ∀ (P : CipherParameters) (k d x y : Word P.n),
    Rk P 0 (0, 0) = (0, 0) ∧ Rk P k (0, 0) = (k, k) ∧
    Rk P 0 (x, 0) = (rotr x P.a, rotr x P.a) ∧
    Rk P 0 (0, y) = (y, rotl y P.b ^^^ y) ∧
    Rk P (BitVec.allOnes P.n) (BitVec.allOnes P.n, BitVec.allOnes P.n) = (1, BitVec.allOnes P.n - 1) ∧
    Rk P (k ^^^ d) (x, y) = ((Rk P k (x, y)).1 ^^^ d, (Rk P k (x, y)).2 ^^^ d)

/-! ### Encodings -/

/-- R77, R78: the opcode map, each command byte written out bit by bit, and every other byte reserved. -/
def Obligations.OpcodeMapDecodes : Prop :=
  decode 0b00000001#8 = .instr .ksched ∧ decode 0b00000010#8 = .instr .enc ∧
  decode 0b00000011#8 = .instr .enck ∧ decode 0b00000100#8 = .instr .round ∧
  decode 0b00000101#8 = .instr .status ∧ decode 0b00000110#8 = .instr .clear ∧
  ∀ c : Byte, (c = 0x00 ∨ 0x07 ≤ c.toNat) → decode c = .reserved c

/-- R77: a command's byte decodes to it and is the only byte that does. -/
def Obligations.DecodeAndEncodeAgree : Prop :=
  ∀ (i : Instr) (c : Byte), decode c = .instr i ↔ c = encode i

/-- R75, R81: for every sequence of commands with any Words before each, the beats they assemble to are cut into packets
and decoded to exactly those commands and Words, whatever data beats are left over at the end. (What the engine
takes as payload is a packet's Words cut off at `m + 3`: DataBeatsAreStagedInOrder.) -/
def Obligations.CommandStreamDecodesToItself : Prop :=
  ∀ (n : Nat) (cs : List (Instr × List (Word n))) (tail : List (Word n)),
    (packetsFrom [] (cs.flatMap (fun c => assemble n (.command c.1 (c.2.map BitVec.toNat))) ++
        tail.map .data)).map (fun p => (decode p.opcode, p.payload))
      = cs.map fun c => (.instr c.1, c.2)

/-- R82: every event's notation reads back as that event, for every Word and every command byte. -/
def Obligations.EventNotationReadsBack : Prop :=
  ∀ (n : Nat) (ev : Event n), readEvent n (renderEvent ev) = some ev

/-- R81: a line of assembly that can be read is legal: every Word it holds is below `2^n` and every byte below 256. -/
def Obligations.ReadLinesAreWellFormed : Prop :=
  ∀ (n : Nat) (cs : List Char) (line : AsmLine), readLine n cs = some line → line.wellFormed n = true

/-- A response packet reads back as itself, and the reserved status code (R74) is never one of the engine's. The spec gives
the packet's form and its codes and no reading of it: that there is one, that it takes any number of Words whatever the
code, and that it refuses code 3, is the model's choice (DESIGN CHOICE, log entry 6). -/
def Obligations.ResponsePacketReadsBack : Prop :=
  ∀ (n : Nat) (r : Response n),
    Response.ofWire r.wire = some r ∧ r.wire.1 ≠ 3 ∧
    ∀ ws : List (Word n), Response.ofWire (3, ws) = none

/-! ### One event -/

/-- R76: a command beat that decodes to a command runs that command on the operands staged so far. -/
def Obligations.StepRunsTheDecodedCommand : Prop :=
  ∀ (P : CipherParameters) (e : EngineState P) (c : Byte) (i : Instr) (inp : List (Event P.n))
    (out : List (Response P.n)),
    decode c = .instr i → step ⟨P, e, .command c :: inp, out⟩ = exec i ⟨P, e, inp, out⟩

/-- R76, R171: the step function is total; no event in any state is a fault or a refusal. -/
def Obligations.EveryStepHasANextState : Prop :=
  ∀ s : State, ∃ t : State, step s = .next t

/-- R63: the data beat. -/
def Obligations.DataBeatIsStagedOrDropped : Prop :=
  ∀ (P : CipherParameters) (e : EngineState P) (w : Word P.n) (inp : List (Event P.n))
    (out : List (Response P.n)),
    (e.OPQ.length < P.m + 3 →
      step ⟨P, e, .data w :: inp, out⟩ = .next ⟨P, { e with OPQ := e.OPQ ++ [w] }, inp, out⟩) ∧
    (P.m + 3 ≤ e.OPQ.length → step ⟨P, e, .data w :: inp, out⟩ = .next ⟨P, e, inp, out⟩)

/-- R63, R75: any run of data beats leaves in the queue the Words staged before it and its own, in arrival order, cut
off at `m + 3`. -/
def Obligations.DataBeatsAreStagedInOrder : Prop :=
  ∀ (P : CipherParameters) (ws : List (Word P.n)) (e : EngineState P) (inp : List (Event P.n))
    (out : List (Response P.n)),
    e.OPQ.length ≤ P.m + 3 →
    run ws.length ⟨P, e, ws.map .data ++ inp, out⟩
      = .next ⟨P, { e with OPQ := (e.OPQ ++ ws).take (P.m + 3) }, inp, out⟩

/-- R163, R78: a reserved opcode raises IllegalCommand whatever is staged, and R167: its payload is not counted; every
other byte is the encoding of a command and runs it. -/
def Obligations.ReservedOpcodeRaisesIllegalCommand : Prop :=
  ∀ (P : CipherParameters) (e : EngineState P) (c : Byte) (inp : List (Event P.n)) (out : List (Response P.n)),
    ((c = 0x00 ∨ 0x07 ≤ c.toNat) →
      step ⟨P, e, .command c :: inp, out⟩
        = .next ⟨P, { e with OPQ := [], ILL := true }, inp, out ++ [⟨.illegal, []⟩]⟩) ∧
    (0x01 ≤ c.toNat → c.toNat ≤ 0x06 →
      ∃ i, encode i = c ∧ step ⟨P, e, .command c :: inp, out⟩ = exec i ⟨P, e, inp, out⟩)

/-- R161(a), R164: a wrong payload count rejects any command whole. -/
def Obligations.WrongPayloadCountIsRejectedWhole : Prop :=
  ∀ (P : CipherParameters) (i : Instr) (e : EngineState P) (inp : List (Event P.n)) (out : List (Response P.n)),
    e.OPQ.length ≠ cnt P i →
    exec i ⟨P, e, inp, out⟩
      = .next ⟨P, { e with OPQ := [], SHAPE := true }, inp, out ++ [⟨.shapeMismatch, []⟩]⟩

/-- R190, R191: the reset event. Of the scratch registers it says nothing but the counter's range (R23): the rest is
unspecified. -/
def Obligations.ResetEventClearsFlagsAndQueue : Prop :=
  ∀ (P : CipherParameters) (e : EngineState P) (inp : List (Event P.n)) (out : List (Response P.n)),
    ∃ e' : EngineState P, step ⟨P, e, .reset :: inp, out⟩ = .next ⟨P, e', inp, out⟩ ∧
      e'.RKV = false ∧ e'.SHAPE = false ∧ e'.ILL = false ∧ e'.OPQ = [] ∧ e'.RC ≤ P.T

/-- R37, R191: out of power-up, for every tuple, the flags and the STATUS view are 0, the queue is empty, nothing is
pending and nothing has been emitted. The contents of the scratch registers are the model's choice (log entry 5)
and no part of this statement. -/
def Obligations.PowerUpState : Prop :=
  ∀ P : CipherParameters,
    (State.resetOf P).P = P ∧ (State.resetOf P).input = [] ∧ (State.resetOf P).output = [] ∧
    (State.resetOf P).engine.RKV = false ∧ (State.resetOf P).engine.SHAPE = false ∧
    (State.resetOf P).engine.ILL = false ∧ (State.resetOf P).engine.OPQ = [] ∧
    statusWord (State.resetOf P).engine = 0

/-- R177, R200: with no event pending the engine is idle and its state persists. -/
def Obligations.IdleEngineKeepsItsState : Prop :=
  ∀ (P : CipherParameters) (e : EngineState P) (out : List (Response P.n)),
    step ⟨P, e, [], out⟩ = .next ⟨P, e, [], out⟩

/-! ### The commands -/

/-- R97: ROUND. With three Words it responds with one application of the round function and writes nothing but the
queue; with any other number it raises ShapeMismatch. -/
def Obligations.RoundAppliesTheRoundFunction : Prop :=
  ∀ (P : CipherParameters) (e : EngineState P) (inp : List (Event P.n)) (out : List (Response P.n)),
    (∀ k x y : Word P.n, e.OPQ = [k, x, y] →
      exec .round ⟨P, e, inp, out⟩
        = .next ⟨P, { e with OPQ := [] }, inp,
            out ++ [⟨.ok, [((rotr x P.a + y) ^^^ k), rotl y P.b ^^^ ((rotr x P.a + y) ^^^ k)]⟩]⟩) ∧
    (e.OPQ.length ≠ 3 →
      exec .round ⟨P, e, inp, out⟩
        = .next ⟨P, { e with OPQ := [], SHAPE := true }, inp, out ++ [⟨.shapeMismatch, []⟩]⟩)

/-- R110: KS.LOAD, register by register; the other elements of the state are as before. -/
def Obligations.KeyScheduleLoad : Prop :=
  ∀ (P : CipherParameters) (key : Key P) (e : EngineState P), ∃ (L' : LQueue P) (k : Word P.n),
    (∀ (j : Nat) (h : j < P.m - 1), L'[j] = key[j]) ∧
    k = key[P.m - 1]'(by have := P.two_le_m; omega) ∧
    ksLoad key e =
      { e with L := L', K := k, RK := e.RK.set 0 k (by have := P.twentyTwo_le_T; omega), RC := 0 }

/-- R111: KS.STEP, register by register, where it is enabled; the other elements of the state are as before. -/
def Obligations.KeyScheduleStep : Prop :=
  ∀ (P : CipherParameters) (e : EngineState P) (h : e.RC ≤ P.T - 2) (l k : Word P.n),
    Rk P (word P.n e.RC) (e.L[P.m - 2]'(by have := P.two_le_m; omega), e.K) = (l, k) →
    ∃ L' : LQueue P,
      L'[0]'(by have := P.two_le_m; omega) = l ∧
      (∀ (j : Nat) (hj : j + 1 < P.m - 1), L'[j + 1] = e.L[j]) ∧
      ksStep e =
        { e with
          L := L'
          K := k
          RK := e.RK.set (e.RC + 1) k (by have := P.twentyTwo_le_T; omega)
          RC := e.RC + 1 }

/-- R113: the key schedule always has exactly `T` words. -/
def Obligations.KeyScheduleHasExactlyTWords : Prop :=
  ∀ (P : CipherParameters) (key : Key P), (keySchedule key).length = P.T

/-- R115, R114(a), R114(c): the queue of the key schedule is the customary recurrence on two sequences. For every Key
there are `ℓ` and `k` with the starting words of the Key, tied by `ℓ_(i+m-1) = (k_i + rotr(ℓ_i, a)) xor i` and
`k_(i+1) = rotl(k_i, b) xor ℓ_(i+m-1)`, and the key schedule is `k_0 .. k_(T-1)`. -/
def Obligations.KeyScheduleIsTheCustomaryRecurrence : Prop :=
  ∀ (P : CipherParameters) (key : Key P), ∃ l k : Nat → Word P.n,
    (∀ (j : Nat) (h : j ≤ P.m - 2), l j = key[P.m - 2 - j]'(by have := P.two_le_m; omega)) ∧
    k 0 = key[P.m - 1]'(by have := P.two_le_m; omega) ∧
    (∀ i, i < P.T - 1 →
      l (i + (P.m - 1)) = (k i + rotr (l i) P.a) ^^^ word P.n i ∧
      k (i + 1) = rotl (k i) P.b ^^^ l (i + (P.m - 1))) ∧
    keySchedule key = (List.range P.T).map k

/-- R114(b): round key `k_(i+1)` depends on the last Key word and on `κ[m-2-j]` for `j ≤ min(i, m-2)` only. -/
def Obligations.RoundKeyDependsOnTheLastKeyWords : Prop :=
  ∀ (P : CipherParameters) (key key' : Key P) (i : Nat),
    key[P.m - 1]'(by have := P.two_le_m; omega) = key'[P.m - 1]'(by have := P.two_le_m; omega) →
    (∀ j, j ≤ i → j ≤ P.m - 2 →
      key[P.m - 2 - j]'(by have := P.two_le_m; omega) = key'[P.m - 2 - j]'(by have := P.two_le_m; omega)) →
    (keySchedule key)[i + 1]? = (keySchedule key')[i + 1]?

/-- R117: KSCHED. On a Key it caches and returns the key schedule and sets `RKV`; the counter ends at `T-1` and `K` at
the last round key (R113); the final queue is no part of the result. On any other number of Words it is
rejected whole. -/
def Obligations.KschedDerivesCachesAndReturnsTheKeys : Prop :=
  ∀ (P : CipherParameters) (e : EngineState P) (inp : List (Event P.n)) (out : List (Response P.n)),
    (∀ key : Key P, e.OPQ = key.toList →
      ∃ (L' : LQueue P) (k : Word P.n) (RK' : Vector (Word P.n) P.T),
        RK'.toList = keySchedule key ∧ (keySchedule key).getLast? = some k ∧
        exec .ksched ⟨P, e, inp, out⟩
          = .next ⟨P, { e with L := L', K := k, RC := P.T - 1, RK := RK', RKV := true, OPQ := [] }, inp,
              out ++ [⟨.ok, keySchedule key⟩]⟩) ∧
    (e.OPQ.length ≠ P.m →
      exec .ksched ⟨P, e, inp, out⟩
        = .next ⟨P, { e with OPQ := [], SHAPE := true }, inp, out ++ [⟨.shapeMismatch, []⟩]⟩)

/-- R131: ENC.LOAD. -/
def Obligations.EncryptorLoad : Prop :=
  ∀ (P : CipherParameters) (x y : Word P.n) (e : EngineState P),
    encLoad (x, y) e = { e with X := x, Y := y, RC := 0 }

/-- R132: ENC.STEP where it is enabled: one round with `RK[RC]`, both Words from the old `X` and `Y`. After ENC.LOAD and
`T` steps the block register holds the fold over the round-key store and the counter is `T`. -/
def Obligations.EncryptorStep : Prop :=
  ∀ (P : CipherParameters) (e : EngineState P), e.RKV = true →
    (∀ (h : e.RC < P.T) (x y : Word P.n), Rk P e.RK[e.RC] (e.X, e.Y) = (x, y) →
      encStep e = { e with X := x, Y := y, RC := e.RC + 1 }) ∧
    (∀ (block : Block P.n) (x y : Word P.n), encryptRounds P e.RK.toList block = (x, y) →
      encStep^[P.T] (encLoad block e) = { e with X := x, Y := y, RC := P.T })

/-- R134: ENC. With two Words and valid keys it folds the round function over the round-key store; with valid keys
missing, or with another number of Words, it is rejected whole. -/
def Obligations.EncEncryptsUnderTheCachedKeys : Prop :=
  ∀ (P : CipherParameters) (e : EngineState P) (inp : List (Event P.n)) (out : List (Response P.n)),
    (∀ x y x' y' : Word P.n, e.OPQ = [x, y] → e.RKV = true →
      encryptRounds P e.RK.toList (x, y) = (x', y') →
      exec .enc ⟨P, e, inp, out⟩
        = .next ⟨P, { e with OPQ := [], X := x', Y := y', RC := P.T }, inp, out ++ [⟨.ok, [x', y']⟩]⟩) ∧
    (e.OPQ.length ≠ 2 ∨ e.RKV = false →
      exec .enc ⟨P, e, inp, out⟩
        = .next ⟨P, { e with OPQ := [], SHAPE := true }, inp, out ++ [⟨.shapeMismatch, []⟩]⟩)

/-- R130: the fold is the chain `B_0 = P`, `B_(j+1) = Rk(k_j, B_j)`, of which the last Block is the ciphertext. -/
def Obligations.EncryptRoundsIsTheChainOfBlocks : Prop :=
  ∀ (P : CipherParameters) (keys : List (Word P.n)) (B : Nat → Block P.n),
    (∀ (j : Nat) (h : j < keys.length), B (j + 1) = Rk P keys[j] (B j)) →
    encryptRounds P keys (B 0) = B keys.length

/-- R134, Result: where the invariant holds and the keys are valid, the response to ENC is the encryption of the
Block under some Key whose schedule is cached. -/
def Obligations.EncResponseIsAnEncryption : Prop :=
  ∀ (P : CipherParameters) (e : EngineState P) (x y : Word P.n) (inp : List (Event P.n))
    (out : List (Response P.n)),
    EngineInv e → e.RKV = true → e.OPQ = [x, y] →
    ∃ (key : Key P) (e' : EngineState P),
      e.RK.toList = keySchedule key ∧
      exec .enc ⟨P, e, inp, out⟩
        = .next ⟨P, e', inp, out ++ [⟨.ok, [(encrypt key (x, y)).1, (encrypt key (x, y)).2]⟩]⟩

/-- R135: ENCK. On a Key and a Block it responds with the encryption, whatever was cached, and leaves the Key's
schedule cached; on any other number of Words it is rejected whole. -/
def Obligations.EnckSchedulesAndEncrypts : Prop :=
  ∀ (P : CipherParameters) (e : EngineState P) (inp : List (Event P.n)) (out : List (Response P.n)),
    (∀ (key : Key P) (x y x' y' : Word P.n), e.OPQ = key.toList ++ [x, y] → encrypt key (x, y) = (x', y') →
      ∃ (L' : LQueue P) (k : Word P.n) (RK' : Vector (Word P.n) P.T),
        RK'.toList = keySchedule key ∧ (keySchedule key).getLast? = some k ∧
        exec .enck ⟨P, e, inp, out⟩
          = .next ⟨P, { e with
                L := L', K := k, RC := P.T, RK := RK', RKV := true, X := x', Y := y', OPQ := [] }, inp,
              out ++ [⟨.ok, [x', y']⟩]⟩) ∧
    (e.OPQ.length ≠ P.m + 2 →
      exec .enck ⟨P, e, inp, out⟩
        = .next ⟨P, { e with OPQ := [], SHAPE := true }, inp, out ++ [⟨.shapeMismatch, []⟩]⟩)

/-- R135: ENCK is KSCHED on the Key, its response discarded, followed by ENC on the Block. The two ways end in the
same engine state, scratch registers included, with the same last response. -/
def Obligations.EnckIsKschedThenEnc : Prop :=
  ∀ (P : CipherParameters) (key : Key P) (x y : Word P.n) (e : EngineState P) (inp : List (Event P.n))
    (out : List (Response P.n)),
    ∃ (e₁ e₂ : EngineState P) (r₁ r₂ : Response P.n),
      exec .ksched ⟨P, { e with OPQ := key.toList }, inp, out⟩ = .next ⟨P, e₁, inp, out ++ [r₁]⟩ ∧
      exec .enc ⟨P, { e₁ with OPQ := [x, y] }, inp, out ++ [r₁]⟩ = .next ⟨P, e₂, inp, out ++ [r₁] ++ [r₂]⟩ ∧
      exec .enck ⟨P, { e with OPQ := key.toList ++ [x, y] }, inp, out⟩ = .next ⟨P, e₂, inp, out ++ [r₂]⟩

/-- R150, R30: STATUS. The word is `RKV + 2·SHAPE + 4·ILL`, so bits `n-1 .. 3` are 0; no flag is cleared; stray data
rejects it. -/
def Obligations.StatusReportsTheFlags : Prop :=
  ∀ (P : CipherParameters) (e : EngineState P) (inp : List (Event P.n)) (out : List (Response P.n)),
    (e.OPQ = [] → ∃ w : Word P.n,
      w.toNat = e.RKV.toNat + 2 * e.SHAPE.toNat + 4 * e.ILL.toNat ∧
      exec .status ⟨P, e, inp, out⟩ = .next ⟨P, { e with OPQ := [] }, inp, out ++ [⟨.ok, [w]⟩]⟩) ∧
    (e.OPQ ≠ [] →
      exec .status ⟨P, e, inp, out⟩
        = .next ⟨P, { e with OPQ := [], SHAPE := true }, inp, out ++ [⟨.shapeMismatch, []⟩]⟩)

/-- R30: the fields of the STATUS word, bit by bit. -/
def Obligations.StatusWordBits : Prop :=
  ∀ (P : CipherParameters) (e : EngineState P),
    (statusWord e).getLsbD 0 = e.RKV ∧ (statusWord e).getLsbD 1 = e.SHAPE ∧ (statusWord e).getLsbD 2 = e.ILL ∧
    ∀ i, 3 ≤ i → (statusWord e).getLsbD i = false

/-- R151: CLEAR. With nothing staged it enters the reset state and responds `OK` with no Word; with stray data it is
rejected and nothing is cleared. -/
def Obligations.ClearEntersTheResetState : Prop :=
  ∀ (P : CipherParameters) (e : EngineState P) (inp : List (Event P.n)) (out : List (Response P.n)),
    (e.OPQ = [] → ∃ e' : EngineState P,
      exec .clear ⟨P, e, inp, out⟩ = .next ⟨P, e', inp, out ++ [⟨.ok, []⟩]⟩ ∧
      e'.RKV = false ∧ e'.SHAPE = false ∧ e'.ILL = false ∧ e'.OPQ = [] ∧ e'.RC ≤ P.T) ∧
    (e.OPQ ≠ [] →
      exec .clear ⟨P, e, inp, out⟩
        = .next ⟨P, { e with OPQ := [], SHAPE := true }, inp, out ++ [⟨.shapeMismatch, []⟩]⟩)

/-- R171, R73, R77: once a command has passed its checks it completes with `OK` and its number of Words, and sets
neither sticky flag. -/
def Obligations.AcceptedCommandRespondsOk : Prop :=
  ∀ (P : CipherParameters) (i : Instr) (e : EngineState P) (inp : List (Event P.n)) (out : List (Response P.n)),
    e.OPQ.length = cnt P i → (i = .enc → e.RKV = true) →
    ∃ (e' : EngineState P) (ws : List (Word P.n)),
      exec i ⟨P, e, inp, out⟩ = .next ⟨P, e', inp, out ++ [⟨.ok, ws⟩]⟩ ∧ ws.length = responseCount P i ∧
      (e'.SHAPE = true → e.SHAPE = true) ∧ (e'.ILL = true → e.ILL = true)

/-! ### Rules about the whole machine -/

/-- R64: a command beat causes exactly one response, which carries no Word unless it is `OK`; a data beat and the reset
event cause none. -/
def Obligations.OneResponsePerCommandBeat : Prop :=
  ∀ (P : CipherParameters) (e : EngineState P) (ev : Event P.n) (inp : List (Event P.n))
    (out : List (Response P.n)),
    ∃ (e' : EngineState P) (rs : List (Response P.n)),
      step ⟨P, e, ev :: inp, out⟩ = .next ⟨P, e', inp, out ++ rs⟩ ∧
      (rs.length = 1 ↔ ∃ c, ev = .command c) ∧ (rs = [] ↔ ¬ ∃ c, ev = .command c) ∧
      ∀ r ∈ rs, r.status ≠ .ok → r.words = []

/-- R161, R163: ShapeMismatch is reported in exactly the two situations of R161, and IllegalCommand for exactly the
reserved opcodes. -/
def Obligations.ExceptionIsReportedExactlyWhenRaised : Prop :=
  ∀ (P : CipherParameters) (e : EngineState P) (ev : Event P.n) (inp : List (Event P.n))
    (out : List (Response P.n)),
    ∃ (e' : EngineState P) (rs : List (Response P.n)),
      step ⟨P, e, ev :: inp, out⟩ = .next ⟨P, e', inp, out ++ rs⟩ ∧
      ((∃ r ∈ rs, r.status = .shapeMismatch) ↔ raisesShape e ev) ∧
      ((∃ r ∈ rs, r.status = .illegal) ↔ raisesIllegal ev)

/-- R25: after any event the keys are valid exactly when the event derived keys, or they were valid before and the event
was no reset and no accepted CLEAR. -/
def Obligations.KeysValidChangesOnlyByRule : Prop :=
  ∀ (P : CipherParameters) (e e' : EngineState P) (ev : Event P.n) (inp : List (Event P.n))
    (out out' : List (Response P.n)),
    step ⟨P, e, ev :: inp, out⟩ = .next ⟨P, e', inp, out'⟩ →
    (e'.RKV = true ↔ derivesKeys e ev ∨ (e.RKV = true ∧ ¬ resets e ev))

/-- R28, R161: after any event SHAPE is set exactly when the event raised ShapeMismatch, or it was set before and the event
was no reset and no accepted CLEAR. -/
def Obligations.ShapeFlagIsSticky : Prop :=
  ∀ (P : CipherParameters) (e e' : EngineState P) (ev : Event P.n) (inp : List (Event P.n))
    (out out' : List (Response P.n)),
    step ⟨P, e, ev :: inp, out⟩ = .next ⟨P, e', inp, out'⟩ →
    (e'.SHAPE = true ↔ raisesShape e ev ∨ (e.SHAPE = true ∧ ¬ resets e ev))

/-- R29, R163: the same of ILL and IllegalCommand. -/
def Obligations.IllegalFlagIsSticky : Prop :=
  ∀ (P : CipherParameters) (e e' : EngineState P) (ev : Event P.n) (inp : List (Event P.n))
    (out out' : List (Response P.n)),
    step ⟨P, e, ev :: inp, out⟩ = .next ⟨P, e', inp, out'⟩ →
    (e'.ILL = true ↔ raisesIllegal ev ∨ (e.ILL = true ∧ ¬ resets e ev))

/-- R28, R29: the sticky flags are read by STATUS only. Whatever values they are given, every event but a STATUS that is
accepted has the same responses and leaves the same state but for those two flags. -/
def Obligations.StickyFlagsAreReadByStatusOnly : Prop :=
  ∀ (P : CipherParameters) (e : EngineState P) (shape ill : Bool) (ev : Event P.n) (inp : List (Event P.n))
    (out : List (Response P.n)),
    ¬ (ev = .command 0x05 ∧ e.OPQ = []) →
    ∃ (e' : EngineState P) (shape' ill' : Bool) (out' : List (Response P.n)),
      step ⟨P, e, ev :: inp, out⟩ = .next ⟨P, e', inp, out'⟩ ∧
      step ⟨P, { e with SHAPE := shape, ILL := ill }, ev :: inp, out⟩
        = .next ⟨P, { e' with SHAPE := shape', ILL := ill' }, inp, out'⟩

/-- R24, R21, R22, R62: the round-key store, the L-queue and `K` are written by nothing but an accepted KSCHED or ENCK, an
accepted CLEAR and the reset event. -/
def Obligations.KeyStoreIsWrittenOnlyByKeyDerivation : Prop :=
  ∀ (P : CipherParameters) (e e' : EngineState P) (ev : Event P.n) (inp : List (Event P.n))
    (out out' : List (Response P.n)),
    step ⟨P, e, ev :: inp, out⟩ = .next ⟨P, e', inp, out'⟩ → ¬ derivesKeys e ev → ¬ resets e ev →
    e'.RK = e.RK ∧ e'.L = e.L ∧ e'.K = e.K

/-- R26, R134, R135: the block register is written by nothing but an accepted ENC or ENCK, an accepted CLEAR and the
reset event; and unless an accepted KSCHED runs either, the round counter (R23) is as before too. -/
def Obligations.BlockRegisterIsWrittenOnlyByEncryption : Prop :=
  ∀ (P : CipherParameters) (e e' : EngineState P) (ev : Event P.n) (inp : List (Event P.n))
    (out out' : List (Response P.n)),
    step ⟨P, e, ev :: inp, out⟩ = .next ⟨P, e', inp, out'⟩ → ¬ encrypts e ev → ¬ resets e ev →
    e'.X = e.X ∧ e'.Y = e.Y ∧ (¬ derivesKeys e ev → e'.RC = e.RC)

/-- R164, R34: an event that raises an exception writes nothing but the queue and its own sticky flag. -/
def Obligations.RejectedCommandHasNoPartialEffect : Prop :=
  ∀ (P : CipherParameters) (e e' : EngineState P) (ev : Event P.n) (inp : List (Event P.n))
    (out out' : List (Response P.n)),
    step ⟨P, e, ev :: inp, out⟩ = .next ⟨P, e', inp, out'⟩ →
    (raisesShape e ev → e' = { e with OPQ := [], SHAPE := true } ∧ out' = out ++ [⟨.shapeMismatch, []⟩]) ∧
    (raisesIllegal ev → e' = { e with OPQ := [], ILL := true } ∧ out' = out ++ [⟨.illegal, []⟩])

/-- R35, R27, R23: the invariant is kept by every step from every state that has it. -/
def Obligations.EveryStepKeepsTheInvariant : Prop :=
  ∀ s t : State, Inv s → step s = .next t → Inv t

/-- The invariant holds out of power-up, for every instance. -/
def Obligations.InvariantHoldsAtPowerUp : Prop :=
  (∀ P : CipherParameters, Inv (State.resetOf P)) ∧ Inv State.reset

/-- R34, R36: no response and no observable element ever depends on the scratch registers. Two engines of one instance
that agree on the flags, the queue and the valid round keys take any event to engines that still agree, with
the same responses. -/
def Obligations.ScratchRegistersNeverInfluenceAResponse : Prop :=
  ∀ (P : CipherParameters) (e f : EngineState P) (inp : List (Event P.n)) (out : List (Response P.n)),
    Indistinguishable e f →
    ∃ (e' f' : EngineState P) (inp' : List (Event P.n)) (out' : List (Response P.n)),
      step ⟨P, e, inp, out⟩ = .next ⟨P, e', inp', out'⟩ ∧
      step ⟨P, f, inp, out⟩ = .next ⟨P, f', inp', out'⟩ ∧
      Indistinguishable e' f'

/-- R58: what the engine has done and answered after `k` events is a function of those events: events that arrive later
change none of it. -/
def Obligations.LaterEventsDoNotChangeEarlierResponses : Prop :=
  ∀ (P : CipherParameters) (k : Nat) (e e' : EngineState P) (inp inp' more : List (Event P.n))
    (out out' : List (Response P.n)),
    k ≤ inp.length → run k ⟨P, e, inp, out⟩ = .next ⟨P, e', inp', out'⟩ →
    run k ⟨P, e, inp ++ more, out⟩ = .next ⟨P, e', inp' ++ more, out'⟩

/-- R75, R76, R81: a line of assembly run from an empty queue stages its Words and performs its command on them. -/
def Obligations.AssembledLineRunsItsCommand : Prop :=
  ∀ (P : CipherParameters) (i : Instr) (ws : List (Word P.n)) (e : EngineState P) (inp : List (Event P.n))
    (out : List (Response P.n)),
    e.OPQ = [] → ws.length ≤ P.m + 3 →
    run (ws.length + 1) ⟨P, e, assemble P.n (.command i (ws.map BitVec.toNat)) ++ inp, out⟩
      = exec i ⟨P, { e with OPQ := ws }, inp, out⟩

/-- R136: for a fixed RoundKeySequence encryption is a bijection on Blocks, and its inverse is the same fold run with the
inverse of the round function and the sequence reversed; so for a fixed Key two plaintexts never have the same
ciphertext. -/
def Obligations.EncryptionIsInjective : Prop :=
  ∀ (P : CipherParameters) (keys : List (Word P.n)) (key : Key P),
    Function.Bijective (encryptRounds P keys) ∧
    (∀ block, keys.reverse.foldl (fun b k => RkInv P k b) (encryptRounds P keys block) = block) ∧
    Function.Injective (encrypt key)

/-- R192: an ENC issued too early is rejected with ShapeMismatch. The keys are not valid out of power-up, after any reset
event and after any accepted CLEAR; and from any state in which they are not valid, through any events of which none is
an accepted KSCHED or ENCK, they stay so, and an ENC that arrives next is rejected whole, whatever is staged. -/
def Obligations.EncBeforeAnyKeyIsRejected : Prop :=
  (∀ P : CipherParameters, (State.resetOf P).engine.RKV = false) ∧
  (∀ (P : CipherParameters) (e : EngineState P) (ev : Event P.n) (inp : List (Event P.n))
    (out : List (Response P.n)), resets e ev →
    ∃ (e' : EngineState P) (out' : List (Response P.n)),
      step ⟨P, e, ev :: inp, out⟩ = .next ⟨P, e', inp, out'⟩ ∧ e'.RKV = false) ∧
  ∀ (P : CipherParameters) (e : EngineState P) (evs inp : List (Event P.n)) (out : List (Response P.n)),
    e.RKV = false →
    (∀ (k : Nat) (e' : EngineState P) (ev : Event P.n) (inp' : List (Event P.n)) (out' : List (Response P.n)),
      k < evs.length →
      run k ⟨P, e, evs ++ .command 0x02 :: inp, out⟩ = .next ⟨P, e', ev :: inp', out'⟩ → ¬ derivesKeys e' ev) →
    ∃ (e' : EngineState P) (out' : List (Response P.n)),
      run evs.length ⟨P, e, evs ++ .command 0x02 :: inp, out⟩ = .next ⟨P, e', .command 0x02 :: inp, out'⟩ ∧
      e'.RKV = false ∧
      run (evs.length + 1) ⟨P, e, evs ++ .command 0x02 :: inp, out⟩
        = .next ⟨P, { e' with OPQ := [], SHAPE := true }, inp, out' ++ [⟨.shapeMismatch, []⟩]⟩

/-- R195, R151: CLEAR sent twice recovers from any staged data: the second one succeeds. -/
def Obligations.ClearSentTwiceRecovers : Prop :=
  ∀ (P : CipherParameters) (e : EngineState P) (inp : List (Event P.n)) (out : List (Response P.n)),
    ∃ (e' : EngineState P) (r : Response P.n),
      run 2 ⟨P, e, .command 0x06 :: .command 0x06 :: inp, out⟩
        = .next ⟨P, e', inp, out ++ [r] ++ [⟨.ok, []⟩]⟩ ∧
      e'.RKV = false ∧ NoRejection e' ∧ e'.OPQ = []

/-- R194: after a rejected KSCHED, an ENC of two Words gives the ciphertext under the previous keys, with status `OK`. -/
def Obligations.RejectedKschedLeavesThePreviousKeys : Prop :=
  ∀ (P : CipherParameters) (e : EngineState P) (x y x' y' : Word P.n) (inp : List (Event P.n))
    (out : List (Response P.n)),
    e.OPQ.length ≠ P.m → e.RKV = true → encryptRounds P e.RK.toList (x, y) = (x', y') →
    run 4 ⟨P, e, .command 0x01 :: .data x :: .data y :: .command 0x02 :: inp, out⟩
      = .next ⟨P, { e with OPQ := [], SHAPE := true, X := x', Y := y', RC := P.T }, inp,
          out ++ [⟨.shapeMismatch, []⟩] ++ [⟨.ok, [x', y']⟩]⟩
end

