-- ==== Sys2Proof/Laws/State.lean ====
section
/-! SUPPORT. One lemma per field of the state for each named update of it, so that no proof unfolds an update. -/

namespace Sys2Proof.Machine

variable {P : CipherParameters}


/-! ### takePayload -/

@[simp] theorem takePayload_L (e : EngineState P) : (takePayload e).L = e.L := rfl
@[simp] theorem takePayload_K (e : EngineState P) : (takePayload e).K = e.K := rfl
@[simp] theorem takePayload_RC (e : EngineState P) : (takePayload e).RC = e.RC := rfl
@[simp] theorem takePayload_RK (e : EngineState P) : (takePayload e).RK = e.RK := rfl
@[simp] theorem takePayload_RKV (e : EngineState P) : (takePayload e).RKV = e.RKV := rfl
@[simp] theorem takePayload_X (e : EngineState P) : (takePayload e).X = e.X := rfl
@[simp] theorem takePayload_Y (e : EngineState P) : (takePayload e).Y = e.Y := rfl
@[simp] theorem takePayload_OPQ (e : EngineState P) : (takePayload e).OPQ = [] := rfl
@[simp] theorem takePayload_SHAPE (e : EngineState P) : (takePayload e).SHAPE = e.SHAPE := rfl
@[simp] theorem takePayload_ILL (e : EngineState P) : (takePayload e).ILL = e.ILL := rfl
@[simp] theorem takePayload_draws (e : EngineState P) : (takePayload e).draws = e.draws := rfl

/-! ### setSticky -/

@[simp] theorem setSticky_L (x : EngineException) (e : EngineState P) : (setSticky x e).L = e.L := by cases x <;> rfl
@[simp] theorem setSticky_K (x : EngineException) (e : EngineState P) : (setSticky x e).K = e.K := by cases x <;> rfl
@[simp] theorem setSticky_RC (x : EngineException) (e : EngineState P) : (setSticky x e).RC = e.RC := by cases x <;> rfl
@[simp] theorem setSticky_RK (x : EngineException) (e : EngineState P) : (setSticky x e).RK = e.RK := by cases x <;> rfl
@[simp] theorem setSticky_RKV (x : EngineException) (e : EngineState P) : (setSticky x e).RKV = e.RKV := by cases x <;> rfl
@[simp] theorem setSticky_X (x : EngineException) (e : EngineState P) : (setSticky x e).X = e.X := by cases x <;> rfl
@[simp] theorem setSticky_Y (x : EngineException) (e : EngineState P) : (setSticky x e).Y = e.Y := by cases x <;> rfl
@[simp] theorem setSticky_OPQ (x : EngineException) (e : EngineState P) : (setSticky x e).OPQ = e.OPQ := by cases x <;> rfl
@[simp] theorem setSticky_draws (x : EngineException) (e : EngineState P) : (setSticky x e).draws = e.draws := by cases x <;> rfl
@[simp] theorem setSticky_shapeMismatch_SHAPE (e : EngineState P) : (setSticky .shapeMismatch e).SHAPE = true := rfl
@[simp] theorem setSticky_shapeMismatch_ILL (e : EngineState P) : (setSticky .shapeMismatch e).ILL = e.ILL := rfl
@[simp] theorem setSticky_illegalCommand_SHAPE (e : EngineState P) : (setSticky .illegalCommand e).SHAPE = e.SHAPE := rfl
@[simp] theorem setSticky_illegalCommand_ILL (e : EngineState P) : (setSticky .illegalCommand e).ILL = true := rfl

/-! ### ksLoad -/

@[simp] theorem ksLoad_L (key : Key P) (e : EngineState P) : (ksLoad key e).L = Key.queue key := rfl
@[simp] theorem ksLoad_K (key : Key P) (e : EngineState P) : (ksLoad key e).K = Key.last key := rfl
@[simp] theorem ksLoad_RC (key : Key P) (e : EngineState P) : (ksLoad key e).RC = 0 := rfl
@[simp] theorem ksLoad_RK (key : Key P) (e : EngineState P) :
    (ksLoad key e).RK = e.RK.set 0 (Key.last key) (by have := P.twentyTwo_le_T; omega) := rfl
@[simp] theorem ksLoad_RKV (key : Key P) (e : EngineState P) : (ksLoad key e).RKV = e.RKV := rfl
@[simp] theorem ksLoad_X (key : Key P) (e : EngineState P) : (ksLoad key e).X = e.X := rfl
@[simp] theorem ksLoad_Y (key : Key P) (e : EngineState P) : (ksLoad key e).Y = e.Y := rfl
@[simp] theorem ksLoad_OPQ (key : Key P) (e : EngineState P) : (ksLoad key e).OPQ = e.OPQ := rfl
@[simp] theorem ksLoad_SHAPE (key : Key P) (e : EngineState P) : (ksLoad key e).SHAPE = e.SHAPE := rfl
@[simp] theorem ksLoad_ILL (key : Key P) (e : EngineState P) : (ksLoad key e).ILL = e.ILL := rfl
@[simp] theorem ksLoad_draws (key : Key P) (e : EngineState P) : (ksLoad key e).draws = e.draws := rfl

/-! ### encLoad -/

@[simp] theorem encLoad_L (block : Block P.n) (e : EngineState P) : (encLoad block e).L = e.L := rfl
@[simp] theorem encLoad_K (block : Block P.n) (e : EngineState P) : (encLoad block e).K = e.K := rfl
@[simp] theorem encLoad_RC (block : Block P.n) (e : EngineState P) : (encLoad block e).RC = 0 := rfl
@[simp] theorem encLoad_RK (block : Block P.n) (e : EngineState P) : (encLoad block e).RK = e.RK := rfl
@[simp] theorem encLoad_RKV (block : Block P.n) (e : EngineState P) : (encLoad block e).RKV = e.RKV := rfl
@[simp] theorem encLoad_X (block : Block P.n) (e : EngineState P) : (encLoad block e).X = block.1 := rfl
@[simp] theorem encLoad_Y (block : Block P.n) (e : EngineState P) : (encLoad block e).Y = block.2 := rfl
@[simp] theorem encLoad_OPQ (block : Block P.n) (e : EngineState P) : (encLoad block e).OPQ = e.OPQ := rfl
@[simp] theorem encLoad_SHAPE (block : Block P.n) (e : EngineState P) : (encLoad block e).SHAPE = e.SHAPE := rfl
@[simp] theorem encLoad_ILL (block : Block P.n) (e : EngineState P) : (encLoad block e).ILL = e.ILL := rfl
@[simp] theorem encLoad_draws (block : Block P.n) (e : EngineState P) : (encLoad block e).draws = e.draws := rfl

/-! ### resetEngine: the elements a reset gives a value to -/

@[simp] theorem resetEngine_RKV (e : EngineState P) : (resetEngine e).RKV = false := rfl
@[simp] theorem resetEngine_SHAPE (e : EngineState P) : (resetEngine e).SHAPE = false := rfl
@[simp] theorem resetEngine_ILL (e : EngineState P) : (resetEngine e).ILL = false := rfl
@[simp] theorem resetEngine_OPQ (e : EngineState P) : (resetEngine e).OPQ = [] := rfl
@[simp] theorem resetEngine_draws (e : EngineState P) : (resetEngine e).draws = e.draws + 1 := rfl

/-! ### powerUp -/

@[simp] theorem powerUp_RKV : (EngineState.powerUp P).RKV = false := rfl
@[simp] theorem powerUp_SHAPE : (EngineState.powerUp P).SHAPE = false := rfl
@[simp] theorem powerUp_ILL : (EngineState.powerUp P).ILL = false := rfl
@[simp] theorem powerUp_OPQ : (EngineState.powerUp P).OPQ = [] := rfl
@[simp] theorem powerUp_RC : (EngineState.powerUp P).RC = 0 := rfl

/-! ### respond and raise -/

@[simp] theorem respond_engine (st : Status) (ws : List (Word P.n)) (e : EngineState P) : (respond st ws e).1 = e := rfl
@[simp] theorem respond_response (st : Status) (ws : List (Word P.n)) (e : EngineState P) : (respond st ws e).2 = ⟨st, ws⟩ := rfl
@[simp] theorem raise_engine (x : EngineException) (e : EngineState P) : (raise x e).1 = setSticky x e := rfl
@[simp] theorem raise_response (x : EngineException) (e : EngineState P) : (raise x e).2 = ⟨x.status, []⟩ := rfl

/-! ### the machine around the engine -/

@[simp] theorem perform_mk (e : EngineState P) (inp : List (Event P.n)) (out : List (Response P.n))
    (command : EngineState P → EngineState P × Response P.n) :
    State.perform ⟨P, e, inp, out⟩ command = ⟨P, (command e).1, inp, out ++ [(command e).2]⟩ := rfl
@[simp] theorem absorb_mk (e : EngineState P) (inp : List (Event P.n)) (out : List (Response P.n))
    (event : EngineState P → EngineState P) :
    State.absorb ⟨P, e, inp, out⟩ event = ⟨P, event e, inp, out⟩ := rfl
@[simp] theorem perform_P (s : State) (command : EngineState s.P → EngineState s.P × Response s.P.n) :
    (s.perform command).P = s.P := rfl
@[simp] theorem absorb_P (s : State) (event : EngineState s.P → EngineState s.P) : (s.absorb event).P = s.P := rfl

end Sys2Proof.Machine
end

