-- ==== Sys2Proof/Laws/Ops.lean ====
section
/-! SUPPORT. What each shared operation can do, said once: the exception, the taking of a payload, the data beat, the
round function, the queue, and the micro-steps where they are enabled. -/

namespace Sys2Proof.Machine

variable {P : CipherParameters}

/-! ### Word arithmetic -/

theorem add_eq {n : Nat} (u v : Word n) : add u v = u + v := by
  apply BitVec.eq_of_toNat_eq
  simp [add]

theorem rotl_mod {n : Nat} (w : Word n) (r : Nat) : rotl w (r % n) = rotl w r := by simp [rotl]

theorem rotr_mod {n : Nat} (w : Word n) (r : Nat) : rotr w (r % n) = rotr w r := by simp [rotr]

theorem rk_eq (k : Word P.n) (block : Block P.n) :
    Rk P k block =
      ((rotr block.1 P.a + block.2) ^^^ k, rotl block.2 P.b ^^^ ((rotr block.1 P.a + block.2) ^^^ k)) := by
  simp [Rk, xor, add_eq]

/-! ### The exception and the payload -/

theorem raise_shapeMismatch (e : EngineState P) :
    raise .shapeMismatch e = ({ e with SHAPE := true }, ⟨.shapeMismatch, []⟩) := rfl

theorem raise_illegalCommand (e : EngineState P) :
    raise .illegalCommand e = ({ e with ILL := true }, ⟨.illegal, []⟩) := rfl

theorem onPayload_of_length {want : Nat} {body} {e : EngineState P} (h : e.OPQ.length = want) :
    onPayload want body e = body ⟨e.OPQ.toArray, by simpa using h⟩ (takePayload e) := dif_pos h

theorem onPayload_of_ne {want : Nat} {body} {e : EngineState P} (h : e.OPQ.length ≠ want) :
    onPayload want body e = ({ e with OPQ := [], SHAPE := true }, ⟨.shapeMismatch, []⟩) := dif_neg h

/-- A command either runs its body on a payload of the right length or is turned away whole. -/
theorem onPayload_cases (want : Nat) (body) (e : EngineState P) :
    (∃ p : Vector (Word P.n) want, p.toList = e.OPQ ∧ onPayload want body e = body p (takePayload e)) ∨
    (e.OPQ.length ≠ want ∧
      onPayload want body e = ({ e with OPQ := [], SHAPE := true }, ⟨.shapeMismatch, []⟩)) := by
  by_cases h : e.OPQ.length = want
  · exact .inl ⟨⟨e.OPQ.toArray, by simpa using h⟩, by simp [Vector.toList], onPayload_of_length h⟩
  · exact .inr ⟨h, onPayload_of_ne h⟩

/-- A payload that is known as a vector is the one the body gets. -/
theorem onPayload_toList {want : Nat} {body} {e : EngineState P} (p : Vector (Word P.n) want)
    (h : e.OPQ = p.toList) : onPayload want body e = body p (takePayload e) := by
  have hl : e.OPQ.length = want := by simp [h]
  rw [onPayload_of_length hl]
  congr 1
  apply Vector.toArray_inj.mp
  simp [h, Vector.toList]

/-- A word that ends up in the queue is at its end, and a queue that is full stays as it is. -/
theorem pushOperand_cases (w : Word P.n) (e : EngineState P) :
    (e.OPQ.length < P.m + 3 ∧ pushOperand w e = { e with OPQ := e.OPQ ++ [w] }) ∨
    (P.m + 3 ≤ e.OPQ.length ∧ pushOperand w e = e) := by
  unfold pushOperand queueCapacity
  split
  · exact .inl ⟨‹_›, rfl⟩
  · exact .inr ⟨by omega, rfl⟩

/-! ### The queue and the micro-steps -/

@[simp] theorem queue_push_toList (q : LQueue P) (w : Word P.n) : (LQueue.push q w).toList = w :: q.toList.dropLast := by
  simp [LQueue.push, Vector.toList]

@[simp] theorem key_queue_toList (key : Key P) : (Key.queue key).toList = key.toList.take (P.m - 1) := by
  simp [Key.queue, Vector.toList]

@[simp] theorem keyOfPayload_toList (p : Vector (Word P.n) (P.m + 2)) :
    (keyOfPayload p).toList = p.toList.take P.m := by
  simp [keyOfPayload, Vector.toList]

theorem ksStep_of_lt {e : EngineState P} (h : e.RC + 1 < P.T) :
    ksStep e =
      { e with
        L := (scheduleStep e.RC e.L e.K).1
        K := (scheduleStep e.RC e.L e.K).2
        RK := e.RK.set (e.RC + 1) (scheduleStep e.RC e.L e.K).2 h
        RC := e.RC + 1 } := dif_pos h

theorem ksStep_of_not_lt {e : EngineState P} (h : ¬ e.RC + 1 < P.T) : ksStep e = e := dif_neg h

theorem encStep_of_lt {e : EngineState P} (h : e.RC < P.T) (hv : e.RKV = true) :
    encStep e =
      { e with
        X := (Rk P (e.RK[e.RC]'h) (e.X, e.Y)).1
        Y := (Rk P (e.RK[e.RC]'h) (e.X, e.Y)).2
        RC := e.RC + 1 } := dif_pos ⟨h, hv⟩

theorem resetEngine_RC_le (e : EngineState P) : (resetEngine e).RC ≤ P.T :=
  Nat.le_of_lt_succ (Nat.mod_lt _ (Nat.succ_pos _))

end Sys2Proof.Machine
end

