-- ==== Sys2Proof/Laws/PerInstr.lean ====
section
/-! SUPPORT. Facts about every command as syntax, one lemma per constructor of Instr. -/

namespace Sys2Proof.Laws

namespace Encoding

/-- The command is well formed, its byte has it as its one meaning in the opcode map (R77), and no other row of the map
takes that byte. -/
def Statement (i : Instr) : Prop :=
  i.wellFormed = true ∧ decodeTableWord 8 (encode i).toNat = some i ∧
    (opcodeMap.filter fun r => encode i &&& r.mask == r.pattern).map OpcodeRow.instr = [i]

theorem ksched : Statement .ksched := by unfold Statement; decide
theorem enc : Statement .enc := by unfold Statement; decide
theorem enck : Statement .enck := by unfold Statement; decide
theorem round : Statement .round := by unfold Statement; decide
theorem status : Statement .status := by unfold Statement; decide
theorem clear : Statement .clear := by unfold Statement; decide

end Encoding
end Sys2Proof.Laws
end

