-- ==== Sys2Proof/Laws/Step.lean ====
section
/-! SUPPORT. What one step is, for each kind of event, and what exec is for each command. -/

namespace Sys2Proof.Machine

variable {P : CipherParameters} (e : EngineState P) (inp : List (Event P.n)) (out : List (Response P.n))

/-! ### exec -/

theorem exec_ksched : exec .ksched ⟨P, e, inp, out⟩ =
    .next ⟨P, (kschedCommand e).1, inp, out ++ [(kschedCommand e).2]⟩ := rfl

theorem exec_enc : exec .enc ⟨P, e, inp, out⟩ =
    .next ⟨P, (encCommand e).1, inp, out ++ [(encCommand e).2]⟩ := rfl

theorem exec_enck : exec .enck ⟨P, e, inp, out⟩ =
    .next ⟨P, (enckCommand e).1, inp, out ++ [(enckCommand e).2]⟩ := rfl

theorem exec_round : exec .round ⟨P, e, inp, out⟩ =
    .next ⟨P, (roundCommand e).1, inp, out ++ [(roundCommand e).2]⟩ := rfl

theorem exec_status : exec .status ⟨P, e, inp, out⟩ =
    .next ⟨P, (statusCommand e).1, inp, out ++ [(statusCommand e).2]⟩ := rfl

theorem exec_clear : exec .clear ⟨P, e, inp, out⟩ =
    .next ⟨P, (clearCommand e).1, inp, out ++ [(clearCommand e).2]⟩ := rfl

/-- What a command does to the engine, and its response. -/
def engineCommand : Instr → EngineState P → EngineState P × Response P.n
  | .ksched => kschedCommand
  | .enc => encCommand
  | .enck => enckCommand
  | .round => roundCommand
  | .status => statusCommand
  | .clear => clearCommand

theorem exec_eq (i : Instr) : exec i ⟨P, e, inp, out⟩ =
    .next ⟨P, (engineCommand i e).1, inp, out ++ [(engineCommand i e).2]⟩ := by
  cases i <;> rfl

/-! ### step -/

theorem step_idle : step ⟨P, e, [], out⟩ = .next ⟨P, e, [], out⟩ := rfl

theorem step_data (w : Word P.n) :
    step ⟨P, e, .data w :: inp, out⟩ = .next ⟨P, pushOperand w e, inp, out⟩ := rfl

theorem step_reset : step ⟨P, e, .reset :: inp, out⟩ = .next ⟨P, resetEngine e, inp, out⟩ := rfl

/-- Everything a step that takes an event can do. -/
theorem step_cases (ev : Event P.n) :
    (∃ w, ev = .data w ∧ step ⟨P, e, ev :: inp, out⟩ = .next ⟨P, pushOperand w e, inp, out⟩) ∨
    (ev = .reset ∧ step ⟨P, e, ev :: inp, out⟩ = .next ⟨P, resetEngine e, inp, out⟩) ∨
    (∃ c i, ev = .command c ∧ decode c = .instr i ∧ step ⟨P, e, ev :: inp, out⟩ =
      .next ⟨P, (engineCommand i e).1, inp, out ++ [(engineCommand i e).2]⟩) ∨
    (∃ c, ev = .command c ∧ decode c = .reserved c ∧ step ⟨P, e, ev :: inp, out⟩ =
      .next ⟨P, (illegalCommand e).1, inp, out ++ [(illegalCommand e).2]⟩) := by
  cases ev with
  | data w => exact .inl ⟨w, rfl, rfl⟩
  | reset => exact .inr (.inl ⟨rfl, rfl⟩)
  | command c =>
    cases h : decode c with
    | instr i => exact .inr (.inr (.inl ⟨c, i, rfl, h, by simp only [step, h]; exact exec_eq e inp out i⟩))
    | reserved d =>
      have hd : d = c := by
        unfold decode at h
        split at h
        · cases h
        · exact (Decoded.reserved.inj h).symm
      subst hd
      exact .inr (.inr (.inr ⟨d, rfl, h, by simp only [step, h]; rfl⟩))

/-! ### runs -/

theorem run_succ_of_next {k : Nat} {s t : State} (h : step s = .next t) :
    Safety.run (k + 1) s = Safety.run k t := by
  simp [Safety.run, h]

theorem run_eq_core_run (k : Nat) (s : State) : Safety.run k s = Host.Core.run core k s := by
  induction k generalizing s with
  | zero => rfl
  | succ k ih =>
    cases h : step s with
    | next t =>
      have h' : core.step s = .next t := h
      simp only [Safety.run, Host.Core.run, h, h', ih]
      rfl
    | fault r => cases r
    | refused r =>
      have h' : core.step s = .refused r := h
      simp only [Safety.run, Host.Core.run, h, h']
      rfl

end Sys2Proof.Machine
end

