-- ==== Sys2Proof/Tests/Slice0.lean ====
section
/-! SUPPORT. Tests whose expected results stand in the spec (95_test_vectors.md unless a comment says otherwise), the
smoke tests of the checks, and for every statement with hypotheses a witness that meets them. -/

namespace Sys2Proof.Tests
open Sys2Proof.Machine Sys2Proof.Safety

/-! ### Small machines -/

/-- Speck32/64 (GK2). -/
def speck : CipherParameters := ⟨Config.speck32_64, by decide⟩

/-- The non-standard tuple (8, 2, 22, 3, 2) of 95_test_vectors.md, `m = 2`. -/
def tiny : CipherParameters := ⟨⟨8, 2, 22, 3, 2⟩, by decide⟩

/-- The non-standard tuple (5, 2, 22, 7, 2), with a rotation amount above `n`. -/
def narrow : CipherParameters := ⟨⟨5, 2, 22, 7, 2⟩, by decide⟩

/-- An engine out of power-up with Words staged. -/
def staged (P : CipherParameters) (ws : List Nat) : EngineState P :=
  { EngineState.powerUp P with OPQ := ws.map (BitVec.ofNat P.n) }

/-- The machine around an engine, with nothing pending. -/
def around {P : CipherParameters} (e : EngineState P) : State := ⟨P, e, [], []⟩

/-- The key of Speck32/64 in section 2. -/
def speckKey : List Nat := [0x1918, 0x1110, 0x0908, 0x0100]

/-- An engine that has scheduled a Key, with Words staged. -/
def keyed (P : CipherParameters) (key ws : List Nat) : EngineState P :=
  { (kschedCommand (staged P key)).1 with OPQ := ws.map (BitVec.ofNat P.n) }

/-- A Key from numbers. -/
def keyOf (P : CipherParameters) (ws : List Nat) (h : ws.length = P.m) : Key P :=
  ⟨(ws.map (BitVec.ofNat P.n)).toArray, by simpa using h⟩

/-- The last response: its status code and its Words. -/
def reply : Host.Outcome State Fault Refusal → Option (Nat × List Nat)
  | .next s => s.output.getLast?.map fun r => (r.status.code.toNat, r.words.map BitVec.toNat)
  | .fault _ => none
  | .refused _ => none

/-- The flags RKV, SHAPE, ILL and the number of staged Words. -/
def flags : Host.Outcome State Fault Refusal → Option (Bool × Bool × Bool × Nat)
  | .next s => some (s.engine.RKV, s.engine.SHAPE, s.engine.ILL, s.engine.OPQ.length)
  | .fault _ => none
  | .refused _ => none

def pair {n : Nat} (b : Block n) : List Nat := [b.1.toNat, b.2.toNat]

/-! ### The checks refuse ill-formed terms -/

theorem test_tuple_m_too_small : (⟨16, 1, 22, 7, 2⟩ : ParamTuple).wellFormed = false := by decide
theorem test_tuple_T_too_small : (⟨16, 2, 21, 7, 2⟩ : ParamTuple).wellFormed = false := by decide
theorem test_tuple_a_too_wide : (⟨5, 2, 22, 32, 2⟩ : ParamTuple).wellFormed = false := by decide
theorem test_tuple_b_too_wide : (⟨5, 2, 22, 2, 32⟩ : ParamTuple).wellFormed = false := by decide
theorem test_tuple_index_not_a_word : (⟨5, 2, 34, 2, 2⟩ : ParamTuple).wellFormed = false := by decide
/-- GK2: "satisfies rules R3, R4: yes" in every row; and the tuple with `T - 2 = 2^n - 1`. -/
theorem test_tuples_accepted :
    Config.published.all ParamTuple.wellFormed = true ∧ (⟨5, 2, 33, 2, 2⟩ : ParamTuple).wellFormed = true := by decide
theorem test_line_word_too_large : (AsmLine.command .enc [0, 256]).wellFormed 8 = false := by decide
theorem test_line_data_too_large : (AsmLine.data [256]).wellFormed 8 = false := by decide
theorem test_line_byte_too_large : (AsmLine.byte 256).wellFormed 16 = false := by decide
theorem test_line_accepted : (AsmLine.command .enc [0, 255]).wellFormed 8 = true := by decide

/-! ### Decoding: the bytes of R77 written out bit by bit, and R78 -/

theorem test_decode_ksched : decode 0b00000001#8 = .instr .ksched := by decide
theorem test_decode_enc : decode 0b00000010#8 = .instr .enc := by decide
theorem test_decode_enck : decode 0b00000011#8 = .instr .enck := by decide
theorem test_decode_round : decode 0b00000100#8 = .instr .round := by decide
theorem test_decode_status : decode 0b00000101#8 = .instr .status := by decide
theorem test_decode_clear : decode 0b00000110#8 = .instr .clear := by decide
theorem test_decode_reserved :
    decode 0x00 = .reserved 0x00 ∧ decode 0x07 = .reserved 0x07 ∧ decode 0xFF = .reserved 0xFF ∧
    decode 0x81 = .reserved 0x81 := by decide
theorem test_table_word : decodeTableWord 8 4 = some .round ∧ decodeTableWord 8 7 = none := by decide
theorem test_status_code_three : Status.ofCode 3 = none := by decide
/-- R70: "`0` = data, `1` = command". -/
theorem test_tags : (Event.data 7#8).tag = some 0 ∧ (Event.command 7#8 : Event 8).tag = some 1 := by decide
/-- R75, R191: a reset drops what is staged. -/
theorem test_packets : packetsFrom [] [.data 1#8, .reset, .data 2#8, .command 0x04, .data 3#8] = [⟨[2#8], 0x04⟩] := by decide
/-- R75: a packet's events. -/
theorem test_packet_events : (⟨[1#8, 2#8], 0x02⟩ : Packet 8).events = [.data 1#8, .data 2#8, .command 0x02] := by decide

/-! ### Arithmetic (section 3.0) and the round function (sections 3.1, 3.3) -/

theorem test_rotr : rotr 0x1234#16 23 = 0x6824#16 ∧ rotr 0xabcd#16 7 = 0x9b57#16 ∧ rotr 0x1234#16 16 = 0x1234#16 := by decide
theorem test_rotl : rotl 0x8000#16 2 = 0x0002#16 ∧ rotl 0xabcd#16 7 = 0xe6d5#16 ∧ rotl 0x1234#16 0 = 0x1234#16 := by decide
theorem test_sub_wraps : sub 0x0000#16 0x0001#16 = 0xffff#16 := by decide
theorem test_rk_wraps : pair (Rk speck 0x1234#16 (0x0080#16, 0xffff#16)) = [0x1234, 0xedcb] := by decide
theorem test_rk_inverse : pair (RkInv speck 0x1234#16 (0x1234#16, 0xedcb#16)) = [0x0080, 0xffff] := by decide
theorem test_rk_amount_above_width : pair (Rk narrow 0#5 (1#5, 0#5)) = [0x08, 0x08] := by decide

/-! ### The commands -/

/-- Section 3.1; section 6 refutes `[0080, 0080]` for the second. -/
theorem test_round : reply (exec .round (around (staged speck [0x0100, 0x6574, 0x694c]))) = some (0, [0x5316, 0xf627]) := by decide
theorem test_round_direction : reply (exec .round (around (staged speck [0, 1, 0]))) = some (0, [0x0200, 0x0200]) := by decide

/-- Section 4.1, the non-standard tuple with `m = 2`. -/
theorem test_ksched : reply (exec .ksched (around (staged tiny [0x01, 0x00]))) =
    some (0, [0x00, 0x20, 0xa5, 0xdd, 0x32, 0x16, 0xac, 0xfe, 0x7b, 0x6e, 0x6e, 0xdb, 0x43, 0xc9, 0x4b, 0xfb,
      0x35, 0x54, 0x24, 0x50, 0x3a, 0x55]) := by decide +kernel
/-- Section 4.1, Speck32/64; section 6 refutes `k_1 = 0x3532` (the other queue orientation). -/
theorem test_ksched_orientation :
    (reply (exec .ksched (around (staged speck speckKey)))).map (fun r => r.2.take 4) =
      some [0x0100, 0x1512, 0x617d, 0x1458] := by decide +kernel
/-- Section 4.1, register trace: after two steps the queue is `3535, 1112, 1918` and `K = 617d`. -/
theorem test_queue_trace :
    let e := ksStep (ksStep (ksLoad (keyOf speck speckKey rfl) (staged speck [])))
    e.L.toList.map BitVec.toNat = [0x3535, 0x1112, 0x1918] ∧ e.K.toNat = 0x617d ∧ e.RC = 2 := by decide

/-- Section 4.2. -/
theorem test_enc : reply (exec .enc (around (keyed tiny [0x01, 0x00] [0x12, 0x34]))) = some (0, [0xb6, 0x4b]) := by decide +kernel
/-- Section 4.3, first row: no round keys. -/
theorem test_enc_without_keys : reply (exec .enc (around (staged tiny [0x12, 0x34]))) = some (1, []) := by decide

/-- Sections 2 and 4.2: Speck32/64; section 6 refutes `[b87a, 0f64]`. -/
theorem test_enck : reply (exec .enck (around (staged speck (speckKey ++ [0x6574, 0x694c])))) = some (0, [0xa868, 0x42f2]) := by decide +kernel
/-- Program 6, line 2, and the flags it leaves. -/
theorem test_enck_tiny :
    reply (exec .enck (around (staged tiny [1, 0, 0, 0]))) = some (0, [0x7d, 0x41]) ∧
    flags (exec .enck (around (staged tiny [1, 0, 0, 0]))) = some (true, false, false, 0) := by decide +kernel

/-- Section 4.4. -/
theorem test_status :
    reply (exec .status (around { staged speck [] with RKV := true, SHAPE := true, ILL := true })) = some (0, [7]) ∧
    reply (exec .status (around { staged speck [] with SHAPE := true, ILL := true })) = some (0, [6]) := by decide
/-- Section 4.3: STATUS with a stray Word. -/
theorem test_status_stray : reply (exec .status (around (staged speck [0]))) = some (1, []) := by decide

/-- Section 4.4: CLEAR, and section 4.3: CLEAR with a stray Word clears nothing. -/
theorem test_clear : flags (exec .clear (around { staged speck [] with RKV := true, SHAPE := true, ILL := true })) =
    some (false, false, false, 0) := by decide
theorem test_clear_stray : flags (exec .clear (around { staged speck [1] with RKV := true, ILL := true })) =
    some (true, true, true, 0) := by decide

/-! ### Events -/

/-- Section 4.3: `.data 0x1234` then `.byte 0xff`. -/
theorem test_reserved_before_count :
    flags (step ⟨speck, staged speck [0x1234], [.command 0xFF], []⟩) = some (false, false, true, 0) := by decide
/-- R27, section 4.3: the queue is saturated at `m + 3 = 7`. -/
theorem test_queue_saturates :
    flags (step ⟨speck, staged speck [1, 2, 3, 4, 5, 6, 7], [.data 8#16], []⟩) = some (false, false, false, 7) := by decide
/-- R190, R191: staged data and the flags are lost, without a response. -/
theorem test_reset_event :
    flags (step ⟨speck, { staged speck [1, 2] with RKV := true, SHAPE := true, ILL := true }, [.reset], []⟩) =
      some (false, false, false, 0) := by decide
/-- The instruction that is placed is the one that runs: STATUS out of reset (section 4.4), a reserved byte (R163). -/
theorem test_with_fetch_word :
    reply (step (State.reset.withFetchWord 8 5)) = some (0, [0]) ∧
    reply (step (State.reset.withFetchWord 8 7)) = some (2, []) := by decide

/-! ### Known answers (section 2) and non-degeneracy (R137) -/

/-- Section 2, the rows with `m = 2` and `m = 3` of the narrowest engines. -/
theorem test_known_answers :
    pair (encrypt (P := ⟨Config.speck48_72, by decide⟩) ⟨#[0x121110#24, 0x0a0908#24, 0x020100#24], rfl⟩
      (0x20796c#24, 0x6c6172#24)) = [0xc049a5, 0x385adc] ∧
    pair (encrypt (P := ⟨Config.speck96_96, by decide⟩) ⟨#[0x0d0c0b0a0908#48, 0x050403020100#48], rfl⟩
      (0x65776f68202c#48, 0x656761737520#48)) = [0x9e4d09ab7178, 0x62bdde8f79aa] := by decide +kernel

/-! ### Notation -/

/-- R82: the example `D:6574 D:694c C:02` of the line `ENC 0x6574, 0x694c`. -/
theorem test_event_notation :
    (readLine 16 ['E', 'N', 'C', ' ', '0', 'x', '6', '5', '7', '4', ',', ' ', '0', 'x', '6', '9', '4', 'c', ' ', ';', 'p']).map
        (fun l => renderEvents (assemble 16 l)) =
      some ['D', ':', '6', '5', '7', '4', ' ', 'D', ':', '6', '9', '4', 'c', ' ', 'C', ':', '0', '2'] := by decide
/-- R81: the directives. -/
theorem test_directives :
    readLine 16 ['.', 'r', 'e', 's', 'e', 't'] = some .reset ∧
    readLine 16 ['.', 'b', 'y', 't', 'e', ' ', '0', 'x', 'f', 'f'] = some (.byte 255) ∧
    readLine 16 ['.', 'd', 'a', 't', 'a', ' ', '0', 'x', '1'] = some (.data [1]) := by decide
/-- R81: five digits where `ceil(16/4)` is four; R83: there is no NOP; mnemonics are upper case. -/
theorem test_illegal_lines :
    readLine 16 ['.', 'd', 'a', 't', 'a', ' ', '0', 'x', '0', '0', '0', '0', '1'] = none ∧
    readLine 16 ['N', 'O', 'P'] = none ∧ readLine 16 ['c', 'l', 'e', 'a', 'r'] = none := by decide
/-- R82: `OK [a868, 42f2]` and `SHAPE_MISMATCH []`. -/
theorem test_response_notation :
    renderResponse (⟨.ok, [0xa868#16, 0x42f2#16]⟩ : Response 16) =
      ['O', 'K', ' ', '[', 'a', '8', '6', '8', ',', ' ', '4', '2', 'f', '2', ']'] ∧
    (renderResponse (⟨.shapeMismatch, []⟩ : Response 16)).drop 14 = [' ', '[', ']'] := by decide

/-! ### Witnesses: for each statement with hypotheses, a state and operands that meet all of them together, at the ends
of their ranges; for one with several clauses, a witness of each -/

theorem witness_BuiltEnginesAreTheValidTuples : 1 ≤ 1 ∧ 2 ^ (width 1 - 1) ≤ 1 ∧ 1 < 2 ^ width 1 := by decide

theorem witness_LoopIndexIsAWordWithoutTruncation : 20 ≤ narrow.T - 2 ∧ ¬ 21 ≤ narrow.T - 2 := by decide

theorem witness_NoStepChangesTheParameters : ∃ t, step State.reset = .next t := ⟨_, rfl⟩

theorem witness_RotationPermutesBits :
    (0 < 16 ∧ 7 = 23 % 16 ∧ 15 < 16) ∧ (0 < 1 ∧ 0 = 5 % 1 ∧ 0 < 1) := by decide

theorem witness_RotationLaws : 0 < 1 := by decide

theorem witness_RoundFunctionFormula :
    ∃ x' y', Rk speck (0x1234#16) (0x0080#16, 0xffff#16) = (x', y') := ⟨_, _, rfl⟩

theorem witness_OpcodeMapDecodes :
    (0x00 : Byte) = 0x00 ∧ 0x07 ≤ (0x07 : Byte).toNat ∧ 0x07 ≤ (0xFF : Byte).toNat := by decide

theorem witness_ReadLinesAreWellFormed :
    readLine 8 ['.', 'd', 'a', 't', 'a', ' ', '0', 'x', 'f', 'f'] = some (.data [255]) ∧
    readLine 5 ['.', 'b', 'y', 't', 'e', ' ', '0', 'x', 'f', 'f'] = some (.byte 255) := by decide

theorem witness_DecodeAndEncodeAgree : decode 0x06 = .instr .clear ∧ (0x06 : Byte) = encode .clear := by decide

theorem witness_StepRunsTheDecodedCommand : decode 0x01 = .instr .ksched ∧ decode 0x06 = .instr .clear := by decide

/-- The queue of the tuple with `m = 2` holds five Words: the fifth is staged, a sixth is dropped. -/
theorem witness_DataBeatIsStagedOrDropped :
    (staged tiny [1, 2, 3, 4]).OPQ.length < tiny.m + 3 ∧ tiny.m + 3 ≤ (staged tiny [1, 2, 3, 4, 5]).OPQ.length := by decide

theorem witness_DataBeatsAreStagedInOrder : (staged tiny [1, 2, 3, 4, 5]).OPQ.length ≤ tiny.m + 3 := by decide

theorem witness_ReservedOpcodeRaisesIllegalCommand :
    ((0x00 : Byte) = 0x00 ∧ 0x07 ≤ (0x07 : Byte).toNat) ∧
    (0x01 ≤ (0x01 : Byte).toNat ∧ (0x01 : Byte).toNat ≤ 0x06) ∧
    (0x01 ≤ (0x06 : Byte).toNat ∧ (0x06 : Byte).toNat ≤ 0x06) := by decide

/-- One Word too few and one too many for each command, and the overfull queue. -/
theorem witness_WrongPayloadCountIsRejectedWhole :
    (staged tiny [1]).OPQ.length ≠ cnt tiny .ksched ∧ (staged tiny [1, 2, 3]).OPQ.length ≠ cnt tiny .enc ∧
    (staged tiny [1, 2, 3, 4, 5]).OPQ.length ≠ cnt tiny .enck ∧ (staged tiny [1, 2]).OPQ.length ≠ cnt tiny .round ∧
    (staged tiny [1]).OPQ.length ≠ cnt tiny .status ∧ (staged tiny [1]).OPQ.length ≠ cnt tiny .clear := by decide

theorem witness_RoundAppliesTheRoundFunction :
    (staged tiny [1, 2, 3]).OPQ = [1, 2, 3] ∧ (staged tiny [1, 2, 3, 4]).OPQ.length ≠ 3 ∧
    (staged tiny [1, 2]).OPQ.length ≠ 3 := ⟨rfl, by decide, by decide⟩

/-- The last enabled step, `RC = T - 2`. -/
theorem witness_KeyScheduleStep :
    ∃ l k, ({ staged tiny [] with RC := 20 } : EngineState tiny).RC ≤ tiny.T - 2 ∧
      Rk tiny (word tiny.n 20) ((staged tiny []).L[tiny.m - 2], (staged tiny []).K) = (l, k) := ⟨_, _, by decide, rfl⟩

/-- Two Keys of four Words that differ in `κ[0]` only: the first three round keys agree. -/
theorem witness_RoundKeyDependsOnTheLastKeyWords :
    let key := keyOf speck [1, 2, 3, 4] rfl
    let key' := keyOf speck [9, 2, 3, 4] rfl
    key[speck.m - 1] = key'[speck.m - 1] ∧
    ∀ j, j ≤ 1 → j ≤ speck.m - 2 → key[speck.m - 2 - j]? = key'[speck.m - 2 - j]? := by
  refine ⟨rfl, fun j hj _ => ?_⟩
  match j, hj with
  | 0, _ => rfl
  | 1, _ => rfl

theorem witness_KschedDerivesCachesAndReturnsTheKeys :
    (staged tiny [1, 0]).OPQ = Vector.toList (keyOf tiny [1, 0] rfl) ∧ (staged tiny [1]).OPQ.length ≠ tiny.m ∧
    (staged tiny [1, 2, 3]).OPQ.length ≠ tiny.m := ⟨rfl, by decide, by decide⟩

/-- The first and the last enabled step. -/
theorem witness_EncryptorStep :
    ∃ x y x' y', (keyed tiny [1, 0] []).RKV = true ∧ 0 < tiny.T ∧ 21 < tiny.T ∧
      Rk tiny ((keyed tiny [1, 0] []).RK[21]'(by decide)) (5#8, 6#8) = (x, y) ∧
      encryptRounds tiny (keyed tiny [1, 0] []).RK.toList (0, 0) = (x', y') :=
  ⟨_, _, _, _, by decide, by decide, by decide, rfl, rfl⟩

theorem witness_EncEncryptsUnderTheCachedKeys :
    (∃ x' y', (keyed tiny [1, 0] [0x12, 0x34]).OPQ = [0x12, 0x34] ∧ (keyed tiny [1, 0] [0x12, 0x34]).RKV = true ∧
      encryptRounds tiny (keyed tiny [1, 0] []).RK.toList (0x12, 0x34) = (x', y')) ∧
    (keyed tiny [1, 0] [0x12]).OPQ.length ≠ 2 ∧ (staged tiny [1, 2]).RKV = false :=
  ⟨⟨_, _, rfl, by decide, rfl⟩, by decide, rfl⟩

theorem witness_EncryptRoundsIsTheChainOfBlocks :
    ∃ B : Nat → Block tiny.n, ∀ (j : Nat) (h : j < [(7 : Word tiny.n)].length),
      B (j + 1) = Rk tiny [(7 : Word tiny.n)][j] (B j) := by
  refine ⟨fun j => if j = 0 then (0, 0) else Rk tiny 7 (0, 0), fun j h => ?_⟩
  obtain rfl : j = 0 := by simpa using h
  rfl

/-- A scheduled engine has the invariant, by evaluation of the schedule. -/
theorem witness_EncResponseIsAnEncryption :
    EngineInv (keyed tiny [1, 0] [0x12, 0x34]) ∧ (keyed tiny [1, 0] [0x12, 0x34]).RKV = true ∧
    (keyed tiny [1, 0] [0x12, 0x34]).OPQ = [0x12, 0x34] := by
  refine ⟨⟨by decide, by decide, fun _ => ⟨keyOf tiny [1, 0] rfl, ?_⟩⟩, by decide, rfl⟩
  apply List.map_injective_iff.mpr BitVec.toNat_injective
  decide +kernel

theorem witness_EnckSchedulesAndEncrypts :
    (∃ x' y', (staged tiny [1, 0, 0x12, 0x34]).OPQ = Vector.toList (keyOf tiny [1, 0] rfl) ++ [0x12, 0x34] ∧
      encrypt (keyOf tiny [1, 0] rfl) (0x12, 0x34) = (x', y')) ∧
    (staged tiny [1, 0, 0x12]).OPQ.length ≠ tiny.m + 2 ∧
    (staged tiny [1, 0, 0x12, 0x34, 5]).OPQ.length ≠ tiny.m + 2 := ⟨⟨_, _, rfl, rfl⟩, by decide, by decide⟩

theorem witness_StatusReportsTheFlags :
    (staged narrow []).OPQ = [] ∧ (staged narrow [0]).OPQ ≠ [] := ⟨rfl, by simp [staged]⟩

theorem witness_ClearEntersTheResetState :
    (keyed tiny [1, 0] []).OPQ = [] ∧ (keyed tiny [1, 0] [0]).OPQ ≠ [] := ⟨rfl, by simp [keyed]⟩

theorem witness_AcceptedCommandRespondsOk :
    (staged tiny [1, 0]).OPQ.length = cnt tiny .ksched ∧
    ((keyed tiny [1, 0] [1, 2]).OPQ.length = cnt tiny .enc ∧ (keyed tiny [1, 0] [1, 2]).RKV = true) ∧
    (staged tiny [1, 0, 1, 2]).OPQ.length = cnt tiny .enck ∧ (staged tiny [1, 2, 3]).OPQ.length = cnt tiny .round ∧
    (staged tiny []).OPQ.length = cnt tiny .status ∧ (staged tiny []).OPQ.length = cnt tiny .clear := by decide

/-- An event that derives keys, one that resets, one that does neither. -/
theorem witness_KeysValidChangesOnlyByRule :
    (∃ e' out', step ⟨tiny, staged tiny [1, 0], [.command 0x01], []⟩ = .next ⟨tiny, e', [], out'⟩) ∧
    derivesKeys (staged tiny [1, 0]) (.command 0x01) ∧
    (∃ e' out', step ⟨tiny, keyed tiny [1, 0] [], [.command 0x06], []⟩ = .next ⟨tiny, e', [], out'⟩) ∧
    resets (keyed tiny [1, 0] []) (.command 0x06) ∧
    (∃ e' out', step ⟨tiny, keyed tiny [1, 0] [], [.data 5], []⟩ = .next ⟨tiny, e', [], out'⟩) ∧
    ¬ resets (keyed tiny [1, 0] []) (.data 5) :=
  ⟨⟨_, _, rfl⟩, .inl ⟨rfl, rfl⟩, ⟨_, _, rfl⟩, ⟨rfl, rfl⟩, ⟨_, _, rfl⟩, id⟩

/-- Both situations of R161, and an event that keeps the flag. -/
theorem witness_ShapeFlagIsSticky :
    (∃ e' out', step ⟨tiny, staged tiny [1], [.command 0x01], []⟩ = .next ⟨tiny, e', [], out'⟩) ∧
    raisesShape (staged tiny [1]) (.command 0x01) ∧ raisesShape (staged tiny [1, 2]) (.command 0x02) ∧
    (∃ e' out', step ⟨tiny, { staged tiny [] with SHAPE := true }, [.command 0x05], []⟩
      = .next ⟨tiny, e', [], out'⟩) ∧
    ¬ resets (P := tiny) { staged tiny [] with SHAPE := true } (.command 0x05) :=
  ⟨⟨_, _, rfl⟩, ⟨.ksched, by decide, .inl (by decide)⟩, ⟨.enc, by decide, .inr ⟨rfl, rfl⟩⟩, ⟨_, _, rfl⟩,
    fun h => absurd h.1 (by decide)⟩

theorem witness_IllegalFlagIsSticky :
    (∃ e' out', step ⟨tiny, staged tiny [1], [.command 0x07], []⟩ = .next ⟨tiny, e', [], out'⟩) ∧
    raisesIllegal (.command 0x07 : Event tiny.n) ∧ raisesIllegal (.command 0x00 : Event tiny.n) ∧
    (∃ e' out', step ⟨tiny, { staged tiny [] with ILL := true }, [.command 0x05], []⟩ = .next ⟨tiny, e', [], out'⟩) ∧
    ¬ resets (P := tiny) { staged tiny [] with ILL := true } (.command 0x05) :=
  ⟨⟨_, _, rfl⟩, .inr (by decide), .inl rfl, ⟨_, _, rfl⟩, fun h => absurd h.1 (by decide)⟩

/-- A STATUS with stray data, and every other kind of event. -/
theorem witness_StickyFlagsAreReadByStatusOnly :
    ¬ ((.command 0x05 : Event tiny.n) = .command 0x05 ∧ (staged tiny [1]).OPQ = []) ∧
    ¬ ((.command 0x04 : Event tiny.n) = .command 0x05 ∧ (staged tiny []).OPQ = []) ∧
    ¬ ((.reset : Event tiny.n) = .command 0x05 ∧ (staged tiny []).OPQ = []) :=
  ⟨by simp [staged], fun h => absurd (Event.command.inj h.1) (by decide), fun h => by cases h.1⟩

/-- A rejected KSCHED over valid keys. -/
theorem witness_KeyStoreIsWrittenOnlyByKeyDerivation :
    (∃ e' out', step ⟨tiny, keyed tiny [1, 0] [1], [.command 0x01], []⟩ = .next ⟨tiny, e', [], out'⟩) ∧
    ¬ derivesKeys (keyed tiny [1, 0] [1]) (.command 0x01) ∧ ¬ resets (keyed tiny [1, 0] [1]) (.command 0x01) := by
  refine ⟨⟨_, _, rfl⟩, ?_, fun h => absurd h.1 (by decide)⟩
  rintro (h | h)
  · exact absurd h.2 (by decide)
  · exact absurd h.1 (by decide)

/-- An accepted ROUND, which derives no keys either. -/
theorem witness_BlockRegisterIsWrittenOnlyByEncryption :
    (∃ e' out', step ⟨tiny, staged tiny [1, 2, 3], [.command 0x04], []⟩ = .next ⟨tiny, e', [], out'⟩) ∧
    ¬ encrypts (staged tiny [1, 2, 3]) (.command 0x04) ∧ ¬ resets (staged tiny [1, 2, 3]) (.command 0x04) ∧
    ¬ derivesKeys (staged tiny [1, 2, 3]) (.command 0x04) := by
  refine ⟨⟨_, _, rfl⟩, ?_, fun h => absurd h.1 (by decide), ?_⟩ <;>
  · rintro (h | h) <;> exact absurd h.1 (by decide)

theorem witness_RejectedCommandHasNoPartialEffect :
    (∃ e' out', step ⟨tiny, keyed tiny [1, 0] [1], [.command 0x03], []⟩ = .next ⟨tiny, e', [], out'⟩) ∧
    raisesShape (keyed tiny [1, 0] [1]) (.command 0x03) ∧
    (∃ e' out', step ⟨tiny, keyed tiny [1, 0] [1], [.command 0xFF], []⟩ = .next ⟨tiny, e', [], out'⟩) ∧
    raisesIllegal (.command 0xFF : Event tiny.n) :=
  ⟨⟨_, _, rfl⟩, ⟨.enck, by decide, .inl (by decide)⟩, ⟨_, _, rfl⟩, .inr (by decide)⟩

/-- A state with valid keys and a full queue, about to take a command. -/
theorem witness_EveryStepKeepsTheInvariant :
    Inv ⟨tiny, { keyed tiny [1, 0] [1, 2, 3, 4, 5] with RC := tiny.T }, [.command 0x02], []⟩ ∧
    ∃ t, step ⟨tiny, { keyed tiny [1, 0] [1, 2, 3, 4, 5] with RC := tiny.T }, [.command 0x02], []⟩ = .next t := by
  refine ⟨⟨by decide, by decide, fun _ => ⟨keyOf tiny [1, 0] rfl, ?_⟩⟩, ⟨_, rfl⟩⟩
  apply List.map_injective_iff.mpr BitVec.toNat_injective
  decide +kernel

/-- Two engines that differ in every scratch register. -/
theorem witness_ScratchRegistersNeverInfluenceAResponse :
    Indistinguishable (staged tiny [1, 2])
      { staged tiny [1, 2] with
        L := Vector.replicate 1 7, K := 7, RC := 7, RK := Vector.replicate 22 7, X := 7, Y := 7 } :=
  ⟨rfl, rfl, rfl, rfl, fun h => by cases h⟩

theorem witness_LaterEventsDoNotChangeEarlierResponses :
    1 ≤ [(.command 0x05 : Event tiny.n)].length ∧
    ∃ e' inp' out', run 1 ⟨tiny, staged tiny [], [.command 0x05], []⟩ = .next ⟨tiny, e', inp', out'⟩ :=
  ⟨by decide, _, _, _, rfl⟩

theorem witness_AssembledLineRunsItsCommand :
    (staged tiny []).OPQ = [] ∧ [(1 : Word tiny.n), 2, 3, 4, 5].length ≤ tiny.m + 3 := ⟨rfl, by decide⟩

/-- A reset event and an accepted CLEAR over valid keys; and from power-up, two staged Words and no derivation of keys
between: the first event, the last one, and no event at all. -/
theorem witness_EncBeforeAnyKeyIsRejected :
    resets (keyed tiny [1, 0] [1]) .reset ∧ resets (keyed tiny [1, 0] []) (.command 0x06) ∧
    (EngineState.powerUp tiny).RKV = false ∧
    (∀ (k : Nat) (e' : EngineState tiny) (ev : Event tiny.n) (inp' : List (Event tiny.n))
      (out' : List (Response tiny.n)), k < [(.data 1 : Event tiny.n), .data 2].length →
      run k ⟨tiny, EngineState.powerUp tiny, [.data 1, .data 2] ++ [.command 0x02], []⟩
        = .next ⟨tiny, e', ev :: inp', out'⟩ → ¬ derivesKeys e' ev) ∧
    (∀ k : Nat, ¬ k < ([] : List (Event tiny.n)).length) := by
  refine ⟨trivial, ⟨rfl, rfl⟩, rfl, fun k e' ev inp' out' hk h => ?_, fun k => Nat.not_lt_zero k⟩
  match k, hk with
  | 0, _ => cases h; exact id
  | 1, _ => cases h; exact id

theorem witness_RejectedKschedLeavesThePreviousKeys :
    ∃ x' y', (keyed tiny [1, 0] [1, 2, 3]).OPQ.length ≠ tiny.m ∧ (keyed tiny [1, 0] [1, 2, 3]).RKV = true ∧
      encryptRounds tiny (keyed tiny [1, 0] [1, 2, 3]).RK.toList (0x12, 0x34) = (x', y') :=
  ⟨_, _, by decide, by decide, rfl⟩

end Sys2Proof.Tests
end

/-! ## The scope of the model: the valid tuples, the loop index, the parameters, Word arithmetic -/

namespace Sys2Proof

/-! ### Valid parameter tuples (R3, R4) -/

theorem ParamTuple.wellFormed_iff (t : ParamTuple) :
    t.wellFormed = true ↔
      2 ≤ t.m ∧ 22 ≤ t.T ∧ width t.a ≤ t.n ∧ width t.b ≤ t.n ∧ t.T - 2 < 2 ^ t.n := by
  simp only [ParamTuple.wellFormed, Bool.and_eq_true, decide_eq_true_eq, and_assoc]

theorem CipherParameters.exists_toParamTuple_eq_iff (t : ParamTuple) :
    (∃ P : CipherParameters, P.toParamTuple = t) ↔ t.wellFormed = true := by
  constructor
  · rintro ⟨P, rfl⟩
    exact P.valid
  · exact fun h => ⟨⟨t, h⟩, rfl⟩

@[simp] theorem width_zero : width 0 = 0 := rfl

theorem width_of_pos {v : Nat} (hv : 1 ≤ v) : width v = v.log2 + 1 := if_neg (by omega)

theorem two_pow_width_sub_one_le {v : Nat} (hv : 1 ≤ v) : 2 ^ (width v - 1) ≤ v := by
  rw [width_of_pos hv]
  exact Nat.log2_self_le (by omega)

theorem lt_two_pow_width {v : Nat} (hv : 1 ≤ v) : v < 2 ^ width v := by
  rw [width_of_pos hv]
  exact Nat.lt_log2_self

theorem CipherParameters.lt_two_pow_n (P : CipherParameters) {i : Nat} (hi : i ≤ P.T - 2) : i < 2 ^ P.n := by
  obtain ⟨-, -, -, -, hindex⟩ := P.bounds
  omega

/-- R4: the last loop index is at least 20, which is no Word of fewer than 5 bits. -/
theorem CipherParameters.five_le_n (P : CipherParameters) : 5 ≤ P.n := by
  have hT := P.twentyTwo_le_T
  have h20 : 20 < 2 ^ P.n := P.lt_two_pow_n (by omega)
  by_contra hn
  have h16 : 2 ^ P.n ≤ 2 ^ 4 := Nat.pow_le_pow_right (by omega) (by omega)
  omega

/-- Settles O1: the proof field of a built engine is the conjunction of the five conditions. -/
theorem builtEnginesAreTheValidTuples : Obligations.BuiltEnginesAreTheValidTuples :=
  ⟨fun t => (CipherParameters.exists_toParamTuple_eq_iff t).trans t.wellFormed_iff,
    ⟨width_zero, fun _ hv => ⟨two_pow_width_sub_one_le hv, lt_two_pow_width hv⟩⟩,
    CipherParameters.five_le_n⟩

namespace Machine

/-! ### The loop index as a Word (R10) -/

@[simp] theorem word_toNat (n i : Nat) : (word n i).toNat = i % 2 ^ n := BitVec.toNat_ofNat i n

theorem word_toNat_of_le (P : CipherParameters) {i : Nat} (hi : i ≤ P.T - 2) : (word P.n i).toNat = i := by
  rw [word_toNat, Nat.mod_eq_of_lt (P.lt_two_pow_n hi)]

/-- Settles O2: the bound of R4 on the last index keeps every index below `2^n`. -/
theorem loopIndexIsAWordWithoutTruncation : Obligations.LoopIndexIsAWordWithoutTruncation :=
  fun P i => ⟨word_toNat P.n i, word_toNat_of_le P⟩

/-! ### The parameters (R2, R31) -/

theorem step_P {s t : State} (h : step s = .next t) : t.P = s.P := by
  obtain ⟨P, e, inp, out⟩ := s
  cases inp with
  | nil =>
    rw [step_idle] at h
    cases h
    rfl
  | cons ev inp =>
    obtain ⟨w, -, hs⟩ | ⟨-, hs⟩ | ⟨c, i, -, -, hs⟩ | ⟨c, -, -, hs⟩ := step_cases e inp out ev
    all_goals
      rw [hs] at h
      cases h
      rfl

/-- Settles O3, by the cases of a step: each next state is written with the parameters it started from. -/
theorem noStepChangesTheParameters : Obligations.NoStepChangesTheParameters :=
  fun _ _ => step_P

/-! ### Addition, subtraction, exclusive or (R7, R9) -/

section
variable {n : Nat}

theorem add_toNat (u v : Word n) : (add u v).toNat = (u.toNat + v.toNat) % 2 ^ n := BitVec.toNat_ofNat _ n

theorem sub_toNat_cast (u v : Word n) :
    ((sub u v).toNat : Int) = ((u.toNat : Int) - (v.toNat : Int)) % (2 : Int) ^ n := by
  have hv : v.toNat ≤ 2 ^ n := v.isLt.le
  calc ((sub u v).toNat : Int)
      = ((2 ^ n - v.toNat + u.toNat : Nat) : Int) % (2 : Int) ^ n := by simp [sub, BitVec.toNat_sub]
    _ = ((u.toNat : Int) - v.toNat + (2 : Int) ^ n) % (2 : Int) ^ n := by
        congr 1
        push_cast [hv]
        ring
    _ = ((u.toNat : Int) - v.toNat) % (2 : Int) ^ n := Int.add_emod_right ..

theorem xor_getLsbD_toNat (u v : Word n) (i : Nat) :
    ((xor u v).getLsbD i).toNat = ((u.getLsbD i).toNat + (v.getLsbD i).toNat) % 2 := by
  rw [xor, BitVec.getLsbD_xor]
  cases u.getLsbD i <;> cases v.getLsbD i <;> rfl

end

/-- Settles O4: the value of each of the three operations. -/
theorem additionWrapsAndXorIsBitwise : Obligations.AdditionWrapsAndXorIsBitwise :=
  fun _ u v => ⟨add_toNat u v, sub_toNat_cast u v, xor_getLsbD_toNat u v⟩

/-! ### Rotation (R8)

Both rotations cut the Word in two and exchange the two parts; they differ only in where the cut is. -/

/-- The number of `p + q` bits whose low `q` bits are `v`'s high ones and whose high `p` bits are `v`'s low ones. -/
def exchangeParts (p q v : Nat) : Nat := v / 2 ^ p + v % 2 ^ p * 2 ^ q

section
variable {p q n v : Nat} (hn : p + q = n)
include hn

theorem shiftLeft_mod_eq : v * 2 ^ q % 2 ^ n = v % 2 ^ p * 2 ^ q := by
  rw [← hn, pow_add, Nat.mul_mod_mul_right]

variable (hv : v < 2 ^ n)
include hv

theorem highPart_lt : v / 2 ^ p < 2 ^ q :=
  Nat.div_lt_of_lt_mul (by rwa [← pow_add, hn])

theorem exchangeParts_lt : exchangeParts p q v < 2 ^ n := by
  have hlow : v % 2 ^ p + 1 ≤ 2 ^ p := Nat.mod_lt _ (by positivity)
  calc v / 2 ^ p + v % 2 ^ p * 2 ^ q
      < 2 ^ q + v % 2 ^ p * 2 ^ q := Nat.add_lt_add_right (highPart_lt hn hv) _
    _ = (v % 2 ^ p + 1) * 2 ^ q := by ring
    _ ≤ 2 ^ p * 2 ^ q := Nat.mul_le_mul_right _ hlow
    _ = 2 ^ n := by rw [← pow_add, hn]

theorem testBit_exchangeParts {j : Nat} (hj : j < n) :
    (exchangeParts p q v).testBit j = if j < q then v.testBit (j + p) else v.testBit (j - q) := by
  rw [exchangeParts, Nat.add_comm, Nat.mul_comm, Nat.testBit_two_pow_mul_add _ (highPart_lt hn hv)]
  split
  · exact Nat.testBit_div_two_pow ..
  · rw [Nat.testBit_mod_two_pow, decide_eq_true (by omega : j - q < p), Bool.true_and]

theorem toNat_ofNat_exchangeParts :
    (BitVec.ofNat n (exchangeParts p q v)).toNat = exchangeParts p q v := by
  rw [BitVec.toNat_ofNat, Nat.mod_eq_of_lt (exchangeParts_lt hn hv)]

end

section
variable {n : Nat} (w : Word n) (r : Nat)

@[simp] theorem rotl_zero : rotl w 0 = w := by
  apply BitVec.eq_of_toNat_eq
  simp [rotl, Nat.div_eq_of_lt w.isLt, Nat.mod_eq_of_lt w.isLt]

@[simp] theorem rotr_zero : rotr w 0 = w := by
  apply BitVec.eq_of_toNat_eq
  simp [rotr, Nat.mod_one]

variable (hn : 0 < n)
include hn

theorem rotl_toNat_eq_exchangeParts : (rotl w r).toNat = exchangeParts (n - r % n) (r % n) w.toNat := by
  have hlen : n - r % n + r % n = n := Nat.sub_add_cancel (Nat.mod_lt r hn).le
  rw [rotl, shiftLeft_mod_eq hlen, Nat.add_comm]
  exact toNat_ofNat_exchangeParts hlen w.isLt

theorem rotr_toNat_eq_exchangeParts : (rotr w r).toNat = exchangeParts (r % n) (n - r % n) w.toNat := by
  have hlen : r % n + (n - r % n) = n := Nat.add_sub_of_le (Nat.mod_lt r hn).le
  exact toNat_ofNat_exchangeParts hlen w.isLt

theorem rotl_toNat :
    (rotl w r).toNat = w.toNat * 2 ^ (r % n) % 2 ^ n + w.toNat / 2 ^ (n - r % n) := by
  have hlen : n - r % n + r % n = n := Nat.sub_add_cancel (Nat.mod_lt r hn).le
  rw [rotl_toNat_eq_exchangeParts w r hn, shiftLeft_mod_eq hlen, exchangeParts, Nat.add_comm]

theorem rotr_toNat :
    (rotr w r).toNat = w.toNat / 2 ^ (r % n) + w.toNat % 2 ^ (r % n) * 2 ^ (n - r % n) :=
  rotr_toNat_eq_exchangeParts w r hn

variable {i : Nat} (hi : i < n)
include hi

theorem getLsbD_rotl : (rotl w r).getLsbD ((i + r % n) % n) = w.getLsbD i := by
  have hs : r % n < n := Nat.mod_lt r hn
  rw [BitVec.getLsbD, rotl_toNat_eq_exchangeParts w r hn,
    testBit_exchangeParts (Nat.sub_add_cancel hs.le) w.isLt (Nat.mod_lt _ hn)]
  by_cases hwrap : i + r % n < n
  · rw [Nat.mod_eq_of_lt hwrap, if_neg (by omega), Nat.add_sub_cancel]
    rfl
  · have hmod : (i + r % n) % n = i + r % n - n := by
      rw [Nat.mod_eq_sub_mod (by omega), Nat.mod_eq_of_lt (by omega)]
    have hback : i + r % n - n + (n - r % n) = i := by omega
    rw [hmod, if_pos (by omega), hback]
    rfl

theorem getLsbD_rotr : (rotr w r).getLsbD i = w.getLsbD ((i + r % n) % n) := by
  have hs : r % n < n := Nat.mod_lt r hn
  rw [BitVec.getLsbD, rotr_toNat_eq_exchangeParts w r hn,
    testBit_exchangeParts (Nat.add_sub_of_le hs.le) w.isLt hi]
  by_cases hwrap : i + r % n < n
  · rw [Nat.mod_eq_of_lt hwrap, if_pos (by omega)]
    rfl
  · have hmod : (i + r % n) % n = i - (n - r % n) := by
      rw [Nat.mod_eq_sub_mod (by omega), Nat.mod_eq_of_lt (by omega)]
      omega
    rw [hmod, if_neg (by omega)]
    rfl

end

/-- Settles O5: the bits and the two sums from the exchange of the parts of the Word. -/
theorem rotationPermutesBits : Obligations.RotationPermutesBits := by
  rintro n w r s hn rfl
  refine ⟨fun i hi => ⟨getLsbD_rotl w r hn hi, getLsbD_rotr w r hn hi⟩, rotl_toNat w r hn, rotr_toNat w r hn,
    fun hs => ?_⟩
  rw [← rotl_mod, ← rotr_mod, hs]
  exact ⟨rotl_zero w, rotr_zero w⟩

end Machine
end Sys2Proof

/-! ## The state of the engine: what one event does to it, and what every step keeps -/

namespace Sys2Proof.Machine
open Safety

section
variable {P : CipherParameters}

/-! ### The micro-steps in sequence (R111, R132) -/

theorem store_take_succ (RK : Vector (Word P.n) P.T) {i : Nat} (hi : i < P.T) :
    RK.toList.take (i + 1) = RK.toList.take i ++ [RK[i]] := by
  rw [List.take_succ_eq_append_getElem (by simpa using hi), Vector.getElem_toList]

theorem store_drop (RK : Vector (Word P.n) P.T) {i : Nat} (hi : i < P.T) :
    RK.toList.drop i = RK[i] :: RK.toList.drop (i + 1) := by
  rw [List.drop_eq_getElem_cons (by simpa using hi), Vector.getElem_toList]

/-- The relation that carries the induction is `RK[RC] = K`: the micro-steps keep it, and it makes the store below the
counter grow by the words of the recurrence (R112). -/
theorem ksStep_iterate (count : Nat) {e : EngineState P} (hlt : e.RC + count < P.T)
    (hK : e.RK[e.RC]'(by omega) = e.K) :
    ∃ (L' : LQueue P) (k : Word P.n) (RK' : Vector (Word P.n) P.T),
      ksStep^[count] e = { e with L := L', K := k, RK := RK', RC := e.RC + count } ∧ RK'[e.RC + count] = k ∧
      RK'.toList.take (e.RC + count + 1) = e.RK.toList.take e.RC ++ scheduleFrom e.RC e.L e.K count := by
  induction count generalizing e with
  | zero => exact ⟨e.L, e.K, e.RK, rfl, hK, by rw [← hK]; exact store_take_succ e.RK hlt⟩
  | succ count ih =>
    have hnext : e.RC + 1 < P.T := by omega
    have hcount : e.RC + (count + 1) = e.RC + 1 + count := by omega
    simp only [Function.iterate_succ_apply, ksStep_of_lt hnext, hcount]
    obtain ⟨L', k, RK', hiter, hk, hRK⟩ := ih (e := { e with
        L := (scheduleStep e.RC e.L e.K).1
        K := (scheduleStep e.RC e.L e.K).2
        RK := e.RK.set (e.RC + 1) (scheduleStep e.RC e.L e.K).2 hnext
        RC := e.RC + 1 }) (by change e.RC + 1 + count < P.T; omega) (by simp)
    refine ⟨L', k, RK', hiter, hk, hRK.trans ?_⟩
    have hbelow : (e.RK.set (e.RC + 1) (scheduleStep e.RC e.L e.K).2 hnext).toList.take (e.RC + 1)
        = e.RK.toList.take e.RC ++ [e.K] := by
      rw [Vector.toList_set, List.take_set_of_le (le_refl _), store_take_succ e.RK (by omega), hK]
    rw [hbelow, List.append_assoc]
    rfl

theorem encStep_iterate (count : Nat) {e : EngineState P} (hv : e.RKV = true) (hle : e.RC + count ≤ P.T) :
    encStep^[count] e =
      { e with
        X := (encryptRounds P ((e.RK.toList.drop e.RC).take count) (e.X, e.Y)).1
        Y := (encryptRounds P ((e.RK.toList.drop e.RC).take count) (e.X, e.Y)).2
        RC := e.RC + count } := by
  induction count generalizing e with
  | zero => simp [encryptRounds]
  | succ count ih =>
    have hlt : e.RC < P.T := by omega
    have hcount : e.RC + (count + 1) = e.RC + 1 + count := by omega
    rw [hcount] at hle ⊢
    rw [Function.iterate_succ_apply, encStep_of_lt hlt hv, store_drop e.RK hlt]
    exact ih (e := { e with
        X := (Rk P e.RK[e.RC] (e.X, e.Y)).1
        Y := (Rk P e.RK[e.RC] (e.X, e.Y)).2
        RC := e.RC + 1 }) hv hle

/-! ### The key derivation and the encryption as a whole (R117, R134) -/

/-- R113, R117: the counter ends at `T-1` with `K` the last word of the store, which holds the key schedule. -/
theorem deriveKeys_eq (key : Key P) (e : EngineState P) :
    ∃ (L' : LQueue P) (k : Word P.n) (RK' : Vector (Word P.n) P.T),
      deriveKeys key e = { e with L := L', K := k, RK := RK', RC := P.T - 1, RKV := true } ∧
      RK'[P.T - 1]'(by have := P.twentyTwo_le_T; omega) = k ∧ RK'.toList = keySchedule key := by
  have hT := P.twentyTwo_le_T
  obtain ⟨L', k, RK', hiter, hk, hRK⟩ :=
    ksStep_iterate (P.T - 1) (e := ksLoad key e) (by rw [ksLoad_RC]; omega) (by simp)
  simp only [ksLoad_RC, Nat.zero_add] at hiter hk hRK
  refine ⟨L', k, RK', by rw [deriveKeys, hiter]; rfl, hk, ?_⟩
  rw [List.take_of_length_le (by simp; omega)] at hRK
  exact hRK

theorem encryptBlock_eq {e : EngineState P} {block : Block P.n} {x y : Word P.n} (hv : e.RKV = true)
    (hc : encryptRounds P e.RK.toList block = (x, y)) :
    encryptBlock block e = ({ e with X := x, Y := y, RC := P.T }, ⟨.ok, [x, y]⟩) := by
  have hall : e.RK.toList.take P.T = e.RK.toList := List.take_of_length_le (by simp)
  simp [encryptBlock, encStep_iterate P.T (e := encLoad block e) hv (by simp), hall, hc, respond]

section
variable (key : Key P) (e : EngineState P)

@[simp] theorem deriveKeys_RK_toList : (deriveKeys key e).RK.toList = keySchedule key := by
  obtain ⟨_, _, _, h, -, hRK⟩ := deriveKeys_eq key e
  rw [h, ← hRK]

@[simp] theorem deriveKeys_RC : (deriveKeys key e).RC = P.T - 1 := by
  obtain ⟨_, _, _, h, -⟩ := deriveKeys_eq key e
  rw [h]

@[simp] theorem deriveKeys_RKV : (deriveKeys key e).RKV = true := rfl

@[simp] theorem deriveKeys_X : (deriveKeys key e).X = e.X := by
  obtain ⟨_, _, _, h, -⟩ := deriveKeys_eq key e
  rw [h]

@[simp] theorem deriveKeys_Y : (deriveKeys key e).Y = e.Y := by
  obtain ⟨_, _, _, h, -⟩ := deriveKeys_eq key e
  rw [h]

@[simp] theorem deriveKeys_OPQ : (deriveKeys key e).OPQ = e.OPQ := by
  obtain ⟨_, _, _, h, -⟩ := deriveKeys_eq key e
  rw [h]

@[simp] theorem deriveKeys_SHAPE : (deriveKeys key e).SHAPE = e.SHAPE := by
  obtain ⟨_, _, _, h, -⟩ := deriveKeys_eq key e
  rw [h]

@[simp] theorem deriveKeys_ILL : (deriveKeys key e).ILL = e.ILL := by
  obtain ⟨_, _, _, h, -⟩ := deriveKeys_eq key e
  rw [h]

end

/-! ### The commands as equations -/

theorem kschedCommand_eq {e : EngineState P} {key : Key P} (hq : e.OPQ = key.toList) :
    kschedCommand e = (deriveKeys key (takePayload e), ⟨.ok, keySchedule key⟩) := by
  rw [kschedCommand, onPayload_toList key hq]
  simp [respond]

theorem encCommand_eq {e : EngineState P} {x y x' y' : Word P.n} (hq : e.OPQ = [x, y]) (hv : e.RKV = true)
    (hc : encryptRounds P e.RK.toList (x, y) = (x', y')) :
    encCommand e = ({ e with OPQ := [], X := x', Y := y', RC := P.T }, ⟨.ok, [x', y']⟩) := by
  rw [encCommand, onPayload_toList #v[x, y] (by simpa using hq)]
  exact (if_pos hv).trans (encryptBlock_eq (e := takePayload e) hv hc)

theorem keyOfPayload_append (key : Key P) (x y : Word P.n) : keyOfPayload (key ++ #v[x, y]) = key := by
  apply Vector.toList_inj.mp
  rw [keyOfPayload_toList, Vector.toList_append]
  exact List.take_left' (by simp)

theorem blockOfPayload_append (key : Key P) (x y : Word P.n) : blockOfPayload (key ++ #v[x, y]) = (x, y) := by
  simp [blockOfPayload]

theorem enckCommand_eq {e : EngineState P} {key : Key P} {x y x' y' : Word P.n}
    (hq : e.OPQ = key.toList ++ [x, y]) (hc : encrypt key (x, y) = (x', y')) :
    enckCommand e =
      ({ deriveKeys key (takePayload e) with X := x', Y := y', RC := P.T }, ⟨.ok, [x', y']⟩) := by
  rw [enckCommand, onPayload_toList (key ++ #v[x, y]) (by simpa using hq), keyOfPayload_append,
    blockOfPayload_append]
  exact encryptBlock_eq (deriveKeys_RKV ..) (by rw [deriveKeys_RK_toList]; exact hc)

theorem roundCommand_eq {e : EngineState P} {k x y : Word P.n} (hq : e.OPQ = [k, x, y]) :
    roundCommand e = (takePayload e, ⟨.ok, [(Rk P k (x, y)).1, (Rk P k (x, y)).2]⟩) := by
  rw [roundCommand, onPayload_toList #v[k, x, y] (by simpa using hq)]
  rfl

theorem statusCommand_eq {e : EngineState P} (hq : e.OPQ = []) :
    statusCommand e = (takePayload e, ⟨.ok, [statusWord e]⟩) :=
  onPayload_of_length (by simp [hq])

theorem clearCommand_eq {e : EngineState P} (hq : e.OPQ = []) :
    clearCommand e = (resetEngine (takePayload e), ⟨.ok, []⟩) :=
  onPayload_of_length (by simp [hq])

/-- R161: the command `i` raises ShapeMismatch in the engine state `e`. -/
def Mismatch (e : EngineState P) (i : Instr) : Prop :=
  e.OPQ.length ≠ cnt P i ∨ (i = .enc ∧ e.RKV = false)

theorem engineCommand_eq_onPayload (i : Instr) :
    ∃ body, (engineCommand i : EngineState P → _) = onPayload (cnt P i) body := by
  cases i with
  | ksched => exact ⟨_, kschedCommand.eq_def⟩
  | enc => exact ⟨_, encCommand.eq_def⟩
  | enck => exact ⟨_, enckCommand.eq_def⟩
  | round => exact ⟨_, roundCommand.eq_def⟩
  | status => exact ⟨_, statusCommand.eq_def⟩
  | clear => exact ⟨_, clearCommand.eq_def⟩

/-- R161, R164: a command that is turned away is turned away whole. -/
theorem engineCommand_of_mismatch {e : EngineState P} {i : Instr} (h : Mismatch e i) :
    engineCommand i e = ({ e with OPQ := [], SHAPE := true }, ⟨.shapeMismatch, []⟩) := by
  by_cases hlen : e.OPQ.length = cnt P i
  · obtain ⟨rfl, hv⟩ := h.resolve_left (not_not_intro hlen)
    calc encCommand e
        = if e.RKV then _ else raise .shapeMismatch (takePayload e) := onPayload_of_length hlen
      _ = raise .shapeMismatch (takePayload e) := by simp [hv]
  · obtain ⟨body, hbody⟩ := engineCommand_eq_onPayload (P := P) i
    rw [hbody, onPayload_of_ne hlen]

/-! ### The decoder (R77, R78) -/

@[simp] theorem decode_encode (i : Instr) : decode (encode i) = .instr i := by cases i <;> rfl

theorem encode_inj {i j : Instr} : encode i = encode j ↔ i = j :=
  ⟨fun h => Decoded.instr.inj (by rw [← decode_encode i, h, decode_encode]), congrArg encode⟩

theorem eq_encode_of_decode {c : Byte} {i : Instr} (h : decode c = .instr i) : c = encode i := by
  revert c
  cases i <;> decide

theorem ne_encode_of_reserved {c : Byte} (hc : decode c = .reserved c) (i : Instr) : c ≠ encode i := by
  rintro rfl
  simp at hc

/-- R78: a byte is a command's own or reserved. -/
theorem eq_encode_or_reserved (c : Byte) : (∃ i, c = encode i) ∨ decode c = .reserved c := by
  cases h : decode c with
  | instr i => exact .inl ⟨i, eq_encode_of_decode h⟩
  | reserved d =>
    unfold decode at h
    split at h
    · cases h
    · exact .inr h.symm

theorem decode_eq_reserved_iff (c : Byte) : decode c = .reserved c ↔ c = 0x00 ∨ 0x07 ≤ c.toNat := by
  revert c
  decide

end

/-! ### Everything one event can do -/

/-- The event `ev` takes the engine from `e` to the state of the third place, with the responses of the fourth: one
constructor for each way an event can go. -/
inductive Transition {P : CipherParameters} (e : EngineState P) :
    Event P.n → EngineState P → List (Response P.n) → Prop where
  /-- R63: a Word that finds room -/
  | staged (w : Word P.n) (hroom : e.OPQ.length < P.m + 3) :
      Transition e (.data w) { e with OPQ := e.OPQ ++ [w] } []
  /-- R63: a Word that finds the queue full -/
  | dropped (w : Word P.n) (hfull : P.m + 3 ≤ e.OPQ.length) : Transition e (.data w) e []
  /-- R190 -/
  | reset : Transition e .reset (resetEngine e) []
  /-- R163 -/
  | reserved (c : Byte) (hc : decode c = .reserved c) :
      Transition e (.command c) { e with OPQ := [], ILL := true } [⟨.illegal, []⟩]
  /-- R161 -/
  | mismatch (i : Instr) (hbad : Mismatch e i) :
      Transition e (.command (encode i)) { e with OPQ := [], SHAPE := true } [⟨.shapeMismatch, []⟩]
  /-- R117 -/
  | ksched (key : Key P) (hq : e.OPQ = key.toList) :
      Transition e (.command (encode .ksched)) (deriveKeys key (takePayload e)) [⟨.ok, keySchedule key⟩]
  /-- R134 -/
  | enc (x y x' y' : Word P.n) (hq : e.OPQ = [x, y]) (hv : e.RKV = true)
      (hxy : encryptRounds P e.RK.toList (x, y) = (x', y')) :
      Transition e (.command (encode .enc)) { e with OPQ := [], X := x', Y := y', RC := P.T } [⟨.ok, [x', y']⟩]
  /-- R135 -/
  | enck (key : Key P) (x y x' y' : Word P.n) (hq : e.OPQ = key.toList ++ [x, y])
      (hxy : encrypt key (x, y) = (x', y')) :
      Transition e (.command (encode .enck))
        { deriveKeys key (takePayload e) with X := x', Y := y', RC := P.T } [⟨.ok, [x', y']⟩]
  /-- R97 -/
  | round (k x y : Word P.n) (hq : e.OPQ = [k, x, y]) :
      Transition e (.command (encode .round)) (takePayload e)
        [⟨.ok, [(Rk P k (x, y)).1, (Rk P k (x, y)).2]⟩]
  /-- R150 -/
  | status (hq : e.OPQ = []) :
      Transition e (.command (encode .status)) (takePayload e) [⟨.ok, [statusWord e]⟩]
  /-- R151 -/
  | clear (hq : e.OPQ = []) :
      Transition e (.command (encode .clear)) (resetEngine (takePayload e)) [⟨.ok, []⟩]

section
variable {P : CipherParameters} {e e' : EngineState P} {ev : Event P.n} {rs : List (Response P.n)}
  (inp : List (Event P.n)) (out : List (Response P.n))

theorem step_command_encode (i : Instr) :
    step ⟨P, e, .command (encode i) :: inp, out⟩
      = .next ⟨P, (engineCommand i e).1, inp, out ++ [(engineCommand i e).2]⟩ := by
  simp only [step, decode_encode]
  exact exec_eq e inp out i

theorem step_of_transition (h : Transition e ev e' rs) :
    step ⟨P, e, ev :: inp, out⟩ = .next ⟨P, e', inp, out ++ rs⟩ := by
  cases h with
  | staged w hroom =>
    obtain ⟨-, h⟩ | ⟨hfull, -⟩ := pushOperand_cases w e
    · rw [step_data, h, List.append_nil]
    · omega
  | dropped w hfull =>
    obtain ⟨hroom, -⟩ | ⟨-, h⟩ := pushOperand_cases w e
    · omega
    · rw [step_data, h, List.append_nil]
  | reset => rw [step_reset, List.append_nil]
  | reserved c hc =>
    simp only [step, hc]
    rfl
  | mismatch i hbad => rw [step_command_encode, engineCommand_of_mismatch hbad]
  | ksched key hq => rw [step_command_encode, engineCommand, kschedCommand_eq hq]
  | enc x y x' y' hq hv hxy => rw [step_command_encode, engineCommand, encCommand_eq hq hv hxy]
  | enck key x y x' y' hq hxy => rw [step_command_encode, engineCommand, enckCommand_eq hq hxy]
  | round k x y hq => rw [step_command_encode, engineCommand, roundCommand_eq hq]
  | status hq => rw [step_command_encode, engineCommand, statusCommand_eq hq]
  | clear hq => rw [step_command_encode, engineCommand, clearCommand_eq hq]

theorem exists_vector_toList {α : Type} {n : Nat} {l : List α} (h : l.length = n) :
    ∃ v : Vector α n, v.toList = l :=
  ⟨⟨l.toArray, by simpa using h⟩, by simp [Vector.toList]⟩

theorem exists_transition_command (e : EngineState P) (i : Instr) :
    ∃ e' rs, Transition e (.command (encode i)) e' rs := by
  by_cases hbad : Mismatch e i
  · exact ⟨_, _, .mismatch i hbad⟩
  obtain ⟨hlen, hkeys⟩ := not_or.mp hbad
  replace hlen := not_not.mp hlen
  cases i with
  | ksched =>
    obtain ⟨key, hkey⟩ := exists_vector_toList hlen
    exact ⟨_, _, .ksched key hkey.symm⟩
  | enc =>
    obtain ⟨x, y, hq⟩ := List.length_eq_two.mp hlen
    exact ⟨_, _, .enc x y _ _ hq (by simpa using hkeys) rfl⟩
  | enck =>
    replace hlen : e.OPQ.length = P.m + 2 := hlen
    obtain ⟨key, hkey⟩ := exists_vector_toList (l := e.OPQ.take P.m) (n := P.m) (by simp; omega)
    obtain ⟨x, y, hxy⟩ := List.length_eq_two.mp (show (e.OPQ.drop P.m).length = 2 by simp; omega)
    exact ⟨_, _, .enck key x y _ _ (by rw [hkey, ← hxy, List.take_append_drop]) rfl⟩
  | round =>
    obtain ⟨k, x, y, hq⟩ := List.length_eq_three.mp hlen
    exact ⟨_, _, .round k x y hq⟩
  | status => exact ⟨_, _, .status (List.eq_nil_of_length_eq_zero hlen)⟩
  | clear => exact ⟨_, _, .clear (List.eq_nil_of_length_eq_zero hlen)⟩

theorem exists_transition (e : EngineState P) (ev : Event P.n) : ∃ e' rs, Transition e ev e' rs := by
  cases ev with
  | data w =>
    obtain hroom | hfull := Nat.lt_or_ge e.OPQ.length (P.m + 3)
    · exact ⟨_, _, .staged w hroom⟩
    · exact ⟨_, _, .dropped w hfull⟩
  | command c =>
    obtain ⟨i, rfl⟩ | hc := eq_encode_or_reserved c
    · exact exists_transition_command e i
    · exact ⟨_, _, .reserved c hc⟩
  | reset => exact ⟨_, _, .reset⟩

/-- What one step can do, said once: the rules about the whole machine are cases of this. -/
theorem transition_of_step {inp : List (Event P.n)} {out out' : List (Response P.n)}
    (h : step ⟨P, e, ev :: inp, out⟩ = .next ⟨P, e', inp, out'⟩) :
    ∃ rs, out' = out ++ rs ∧ Transition e ev e' rs := by
  obtain ⟨f, rs, hf⟩ := exists_transition e ev
  rw [step_of_transition inp out hf] at h
  cases h
  exact ⟨rs, rfl, hf⟩

end

section
variable {P : CipherParameters} {e f e' : EngineState P} {ev : Event P.n} {rs : List (Response P.n)}

/-! ### The invariant (R23, R27, R35) -/

theorem transition_keeps_engineInv (h : Transition e ev e' rs) (hinv : EngineInv e) : EngineInv e' := by
  obtain ⟨hcounter, hqueue, hkeys⟩ := hinv
  cases h with
  | staged w hroom => exact ⟨hcounter, by simp [queueCapacity]; omega, hkeys⟩
  | dropped w hfull => exact ⟨hcounter, hqueue, hkeys⟩
  | reset => exact ⟨resetEngine_RC_le e, Nat.zero_le _, nofun⟩
  | reserved | mismatch | round | status => exact ⟨hcounter, Nat.zero_le _, hkeys⟩
  | ksched key hq => exact ⟨by simp, by simp, fun _ => ⟨key, by simp⟩⟩
  | enc x y x' y' hq hv hxy => exact ⟨le_refl _, Nat.zero_le _, hkeys⟩
  | enck key x y x' y' hq hxy => exact ⟨le_refl _, by simp, fun _ => ⟨key, by simp⟩⟩
  | clear hq => exact ⟨resetEngine_RC_le _, Nat.zero_le _, nofun⟩

/-! ### What a host can observe (R34, R36) -/

theorem deriveKeys_indistinguishable (key : Key P) (hef : Indistinguishable e f) :
    Indistinguishable (deriveKeys key (takePayload e)) (deriveKeys key (takePayload f)) where
  queue := by simp
  valid := by simp
  shape := by simpa using hef.shape
  illegal := by simpa using hef.illegal
  keys _ := Vector.toList_inj.mp (by simp)

theorem statusWord_eq_of_indistinguishable (hef : Indistinguishable e f) : statusWord e = statusWord f := by
  rw [statusWord, statusWord, hef.valid, hef.shape, hef.illegal]

theorem mismatch_iff_of_indistinguishable (hef : Indistinguishable e f) (i : Instr) :
    Mismatch e i ↔ Mismatch f i := by
  rw [Mismatch, Mismatch, hef.queue, hef.valid]

/-- The commuting square of one event: what the constructor reads is observable, so it applies to the other engine. -/
theorem transition_of_indistinguishable (hef : Indistinguishable e f) (h : Transition e ev e' rs) :
    ∃ f', Transition f ev f' rs ∧ Indistinguishable e' f' := by
  have hqueue := hef.queue
  cases h with
  | staged w hroom =>
    exact ⟨_, .staged w (by rwa [← hqueue]), { hef with queue := congrArg (· ++ [w]) hqueue }⟩
  | dropped w hfull => exact ⟨f, .dropped w (by rwa [← hqueue]), hef⟩
  | reset => exact ⟨_, .reset, rfl, rfl, rfl, rfl, nofun⟩
  | reserved c hc => exact ⟨_, .reserved c hc, { hef with queue := rfl, illegal := rfl }⟩
  | mismatch i hbad =>
    exact ⟨_, .mismatch i ((mismatch_iff_of_indistinguishable hef i).mp hbad),
      { hef with queue := rfl, shape := rfl }⟩
  | ksched key hq => exact ⟨_, .ksched key (hqueue ▸ hq), deriveKeys_indistinguishable key hef⟩
  | enc x y x' y' hq hv hxy =>
    exact ⟨_, .enc x y x' y' (hqueue ▸ hq) (hef.valid ▸ hv) (hef.keys hv ▸ hxy), { hef with queue := rfl }⟩
  | enck key x y x' y' hq hxy =>
    exact ⟨_, .enck key x y x' y' (hqueue ▸ hq) hxy, { deriveKeys_indistinguishable key hef with }⟩
  | round k x y hq => exact ⟨_, .round k x y (hqueue ▸ hq), { hef with queue := rfl }⟩
  | status hq =>
    rw [statusWord_eq_of_indistinguishable hef]
    exact ⟨_, .status (hqueue ▸ hq), { hef with queue := rfl }⟩
  | clear hq => exact ⟨_, .clear (hqueue ▸ hq), rfl, rfl, rfl, rfl, nofun⟩

/-! ### The STATUS word (R30) -/

theorem statusWord_toNat (e : EngineState P) :
    (statusWord e).toNat = e.RKV.toNat + 2 * e.SHAPE.toNat + 4 * e.ILL.toNat := by
  have hRKV := e.RKV.toNat_lt
  have hSHAPE := e.SHAPE.toNat_lt
  have hILL := e.ILL.toNat_lt
  have hn : 2 ^ 5 ≤ 2 ^ P.n := Nat.pow_le_pow_right (by omega) P.five_le_n
  exact (BitVec.toNat_ofNat ..).trans (Nat.mod_eq_of_lt (by omega))

theorem testBit_three_flags (b₀ b₁ b₂ : Bool) :
    (b₀.toNat + 2 * b₁.toNat + 4 * b₂.toNat).testBit 0 = b₀ ∧
    (b₀.toNat + 2 * b₁.toNat + 4 * b₂.toNat).testBit 1 = b₁ ∧
    (b₀.toNat + 2 * b₁.toNat + 4 * b₂.toNat).testBit 2 = b₂ := by
  revert b₀ b₁ b₂
  decide

theorem testBit_three_flags_high (b₀ b₁ b₂ : Bool) {i : Nat} (hi : 3 ≤ i) :
    (b₀.toNat + 2 * b₁.toNat + 4 * b₂.toNat).testBit i = false := by
  have h₀ := b₀.toNat_lt
  have h₁ := b₁.toNat_lt
  have h₂ := b₂.toNat_lt
  have h8 : 2 ^ 3 ≤ 2 ^ i := Nat.pow_le_pow_right (by omega) hi
  exact Nat.testBit_lt_two_pow (by omega)

/-! ### Which events write what -/

/-- The event is the command `i`, and the engine state `e` does not turn it away. -/
def Accepts (e : EngineState P) (i : Instr) (ev : Event P.n) : Prop :=
  ev = .command (encode i) ∧ ¬ Mismatch e i

@[simp] theorem not_accepts_data (i : Instr) (w : Word P.n) : ¬ Accepts e i (.data w) := fun h => nomatch h.1

@[simp] theorem not_accepts_reset (i : Instr) : ¬ Accepts e i .reset := fun h => nomatch h.1

@[simp] theorem accepts_command_encode (i j : Instr) :
    Accepts e i (.command (encode j)) ↔ j = i ∧ ¬ Mismatch e j := by
  rw [Accepts, Event.command.injEq, encode_inj]
  exact and_congr_right fun h => by rw [h]

theorem not_accepts_of_reserved {c : Byte} (hc : decode c = .reserved c) (i : Instr) :
    ¬ Accepts e i (.command c) := fun h => ne_encode_of_reserved hc i (Event.command.inj h.1)

theorem derivesKeys_iff : derivesKeys e ev ↔ Accepts e .ksched ev ∨ Accepts e .enck ev := by
  cases ev <;> simp [derivesKeys, Accepts, Mismatch, encode, cnt]

theorem resets_iff : resets e ev ↔ ev = .reset ∨ Accepts e .clear ev := by
  cases ev <;> simp [resets, Accepts, Mismatch, encode, cnt]

theorem encrypts_iff : encrypts e ev ↔ Accepts e .enc ev ∨ Accepts e .enck ev := by
  cases ev <;> simp [encrypts, Accepts, Mismatch, encode, cnt]

theorem raisesShape_iff : raisesShape e ev ↔ ∃ i, ev = .command (encode i) ∧ Mismatch e i := by
  cases ev with
  | data w => simp [raisesShape]
  | reset => simp [raisesShape]
  | command c =>
    constructor
    · rintro ⟨i, hi, hbad⟩
      exact ⟨i, by rw [eq_encode_of_decode hi], hbad⟩
    · rintro ⟨i, h, hbad⟩
      cases h
      exact ⟨i, decode_encode i, hbad⟩

theorem raisesIllegal_iff : raisesIllegal ev ↔ ∃ c, ev = .command c ∧ decode c = .reserved c := by
  cases ev <;> simp [raisesIllegal, decode_eq_reserved_iff]

theorem transition_RKV (h : Transition e ev e' rs) :
    e'.RKV = true ↔ derivesKeys e ev ∨ (e.RKV = true ∧ ¬ resets e ev) := by
  rw [derivesKeys_iff, resets_iff]
  cases h with
  | staged | dropped | reset | enc | round | status => simp
  | reserved c hc => simp [not_accepts_of_reserved hc]
  | mismatch i hbad => simp [hbad]
  | ksched key hq => simp [Mismatch, hq, cnt]
  | enck key x y x' y' hq hxy => simp [Mismatch, hq, cnt]
  | clear hq => simp [Mismatch, hq, cnt]

theorem transition_SHAPE (h : Transition e ev e' rs) :
    e'.SHAPE = true ↔ raisesShape e ev ∨ (e.SHAPE = true ∧ ¬ resets e ev) := by
  rw [raisesShape_iff, resets_iff]
  cases h with
  | staged | dropped | reset => simp
  | reserved c hc => simp [not_accepts_of_reserved hc, ne_encode_of_reserved hc]
  | mismatch i hbad => simp [encode_inj, hbad]
  | ksched key hq => simp [encode_inj, Mismatch, hq, cnt]
  | enc x y x' y' hq hv hxy => simp [encode_inj, Mismatch, hq, hv, cnt]
  | enck key x y x' y' hq hxy => simp [encode_inj, Mismatch, hq, cnt]
  | round k x y hq => simp [encode_inj, Mismatch, hq, cnt]
  | status hq => simp [encode_inj, Mismatch, hq, cnt]
  | clear hq => simp [encode_inj, Mismatch, hq, cnt]

theorem transition_ILL (h : Transition e ev e' rs) :
    e'.ILL = true ↔ raisesIllegal ev ∨ (e.ILL = true ∧ ¬ resets e ev) := by
  rw [raisesIllegal_iff, resets_iff]
  cases h with
  | staged | dropped | reset | ksched | enc | enck | round | status => simp
  | reserved c hc => simp [hc]
  | mismatch i hbad => simp [hbad]
  | clear hq => simp [Mismatch, hq, cnt]

theorem transition_keySchedule_frame (h : Transition e ev e' rs) (hkeys : ¬ derivesKeys e ev)
    (hreset : ¬ resets e ev) : e'.RK = e.RK ∧ e'.L = e.L ∧ e'.K = e.K := by
  rw [derivesKeys_iff] at hkeys
  rw [resets_iff] at hreset
  cases h with
  | staged | dropped | reserved | mismatch | enc | round | status => exact ⟨rfl, rfl, rfl⟩
  | reset => exact absurd (.inl rfl) hreset
  | ksched key hq => simp [Mismatch, hq, cnt] at hkeys
  | enck key x y x' y' hq hxy => simp [Mismatch, hq, cnt] at hkeys
  | clear hq => simp [Mismatch, hq, cnt] at hreset

theorem transition_block_frame (h : Transition e ev e' rs) (henc : ¬ encrypts e ev) (hreset : ¬ resets e ev) :
    e'.X = e.X ∧ e'.Y = e.Y ∧ (¬ derivesKeys e ev → e'.RC = e.RC) := by
  rw [encrypts_iff] at henc
  rw [resets_iff] at hreset
  rw [derivesKeys_iff]
  cases h with
  | staged | dropped | reserved | mismatch | round | status => exact ⟨rfl, rfl, fun _ => rfl⟩
  | reset => exact absurd (.inl rfl) hreset
  | ksched key hq => simp [Mismatch, hq, cnt]
  | enc x y x' y' hq hv hxy => simp [Mismatch, hq, hv, cnt] at henc
  | enck key x y x' y' hq hxy => simp [Mismatch, hq, cnt] at henc
  | clear hq => simp [Mismatch, hq, cnt] at hreset

/-! ### The sticky flags under every event but STATUS (R28, R29) -/

/-- The engine with other values in its two sticky flags. -/
def withSticky (shape ill : Bool) (e : EngineState P) : EngineState P := { e with SHAPE := shape, ILL := ill }

theorem ksStep_withSticky (shape ill : Bool) (e : EngineState P) :
    withSticky shape ill (ksStep e) = ksStep (withSticky shape ill e) := by
  by_cases h : e.RC + 1 < P.T
  · rw [ksStep_of_lt h, ksStep_of_lt (e := withSticky shape ill e) h]
    rfl
  · rw [ksStep_of_not_lt h, ksStep_of_not_lt (e := withSticky shape ill e) h]

theorem deriveKeys_withSticky (shape ill : Bool) (key : Key P) (e : EngineState P) :
    deriveKeys key (withSticky shape ill e) = withSticky shape ill (deriveKeys key e) := by
  have hcomm : Function.Semiconj (withSticky shape ill) ksStep (ksStep (P := P)) := ksStep_withSticky shape ill
  have hiter := (hcomm.iterate_right (P.T - 1)).eq (ksLoad key e)
  calc deriveKeys key (withSticky shape ill e)
      = { ksStep^[P.T - 1] (withSticky shape ill (ksLoad key e)) with RKV := true } := rfl
    _ = withSticky shape ill (deriveKeys key e) := by
      rw [← hiter]
      rfl

theorem transition_withSticky (shape ill : Bool) (h : Transition e ev e' rs)
    (hstatus : ¬ (ev = .command (encode .status) ∧ e.OPQ = [])) :
    ∃ shape' ill', Transition (withSticky shape ill e) ev (withSticky shape' ill' e') rs := by
  have hderive (key) : deriveKeys key (takePayload (withSticky shape ill e))
      = withSticky shape ill (deriveKeys key (takePayload e)) :=
    deriveKeys_withSticky shape ill key (takePayload e)
  cases h with
  | staged w hroom => exact ⟨shape, ill, .staged w hroom⟩
  | dropped w hfull => exact ⟨shape, ill, .dropped w hfull⟩
  | reset => exact ⟨false, false, .reset⟩
  | reserved c hc => exact ⟨shape, true, .reserved c hc⟩
  | mismatch i hbad => exact ⟨true, ill, .mismatch i hbad⟩
  | ksched key hq =>
    have h := Transition.ksched (e := withSticky shape ill e) key hq
    rw [hderive] at h
    exact ⟨shape, ill, h⟩
  | enc x y x' y' hq hv hxy => exact ⟨shape, ill, .enc x y x' y' hq hv hxy⟩
  | enck key x y x' y' hq hxy =>
    have h := Transition.enck (e := withSticky shape ill e) key x y x' y' hq hxy
    rw [hderive] at h
    exact ⟨shape, ill, h⟩
  | round k x y hq => exact ⟨shape, ill, .round k x y hq⟩
  | status hq => exact absurd ⟨rfl, hq⟩ hstatus
  | clear hq => exact ⟨false, false, .clear hq⟩

end

/-! ### The statements -/

/-- Settles O52: the invariant is kept by each case of a transition. -/
theorem everyStepKeepsTheInvariant : Obligations.EveryStepKeepsTheInvariant := by
  rintro ⟨P, e, inp, out⟩ t hinv h
  cases inp with
  | nil =>
    cases h
    exact hinv
  | cons ev inp =>
    obtain ⟨e', rs, htr⟩ := exists_transition e ev
    rw [step_of_transition inp out htr] at h
    cases h
    exact transition_keeps_engineInv htr hinv

/-- Settles O53: out of power-up the counter is 0, the queue is empty and no key is valid. -/
theorem invariantHoldsAtPowerUp : Obligations.InvariantHoldsAtPowerUp := by
  have hinv (P : CipherParameters) : Inv (State.resetOf P) := ⟨Nat.zero_le _, Nat.zero_le _, nofun⟩
  exact ⟨hinv, hinv _⟩

/-- Settles O54: the commuting square of one event, for whichever event comes next. -/
theorem scratchRegistersNeverInfluenceAResponse : Obligations.ScratchRegistersNeverInfluenceAResponse := by
  intro P e f inp out hef
  cases inp with
  | nil => exact ⟨e, f, [], out, rfl, rfl, hef⟩
  | cons ev inp =>
    obtain ⟨e', rs, he⟩ := exists_transition e ev
    obtain ⟨f', hf, hef'⟩ := transition_of_indistinguishable hef he
    exact ⟨e', f', inp, out ++ rs, step_of_transition inp out he, step_of_transition inp out hf, hef'⟩

/-- Settles O40: the word's value has three binary digits, the flags. -/
theorem statusWordBits : Obligations.StatusWordBits := by
  intro P e
  obtain ⟨h₀, h₁, h₂⟩ := testBit_three_flags e.RKV e.SHAPE e.ILL
  simp only [BitVec.getLsbD, statusWord_toNat]
  exact ⟨h₀, h₁, h₂, fun i => testBit_three_flags_high e.RKV e.SHAPE e.ILL⟩

/-- Settles O45, by the cases of a transition. -/
theorem keysValidChangesOnlyByRule : Obligations.KeysValidChangesOnlyByRule := by
  intro P e e' ev inp out out' h
  obtain ⟨rs, -, htr⟩ := transition_of_step h
  exact transition_RKV htr

/-- Settles O46, by the cases of a transition. -/
theorem shapeFlagIsSticky : Obligations.ShapeFlagIsSticky := by
  intro P e e' ev inp out out' h
  obtain ⟨rs, -, htr⟩ := transition_of_step h
  exact transition_SHAPE htr

/-- Settles O47, by the cases of a transition. -/
theorem illegalFlagIsSticky : Obligations.IllegalFlagIsSticky := by
  intro P e e' ev inp out out' h
  obtain ⟨rs, -, htr⟩ := transition_of_step h
  exact transition_ILL htr

/-- Settles O48: a transition other than STATUS goes the same way with other sticky flags. -/
theorem stickyFlagsAreReadByStatusOnly : Obligations.StickyFlagsAreReadByStatusOnly := by
  intro P e shape ill ev inp out hstatus
  obtain ⟨e', rs, he⟩ := exists_transition e ev
  obtain ⟨shape', ill', hf⟩ := transition_withSticky shape ill he hstatus
  exact ⟨e', shape', ill', out ++ rs, step_of_transition inp out he, step_of_transition inp out hf⟩

/-- Settles O49, by the cases of a transition. -/
theorem keyStoreIsWrittenOnlyByKeyDerivation : Obligations.KeyStoreIsWrittenOnlyByKeyDerivation := by
  intro P e e' ev inp out out' h
  obtain ⟨rs, -, htr⟩ := transition_of_step h
  exact transition_keySchedule_frame htr

/-- Settles O50, by the cases of a transition. -/
theorem blockRegisterIsWrittenOnlyByEncryption : Obligations.BlockRegisterIsWrittenOnlyByEncryption := by
  intro P e e' ev inp out out' h
  obtain ⟨rs, -, htr⟩ := transition_of_step h
  exact transition_block_frame htr

/-- Settles O23: each element is written out in the power-up state. -/
theorem powerUpState : Obligations.PowerUpState :=
  fun _ => ⟨rfl, rfl, rfl, rfl, rfl, rfl, rfl, rfl⟩

end Sys2Proof.Machine

/-! ## The operand queue and the interface: data beats, responses, later events -/

namespace Sys2Proof.Machine
open Safety

section
variable {P : CipherParameters}

/-! ### Data beats (R27, R63, R75) -/

/-- R27, R63: within the queue's bound, the two cases of a data beat are one cut at the capacity. -/
theorem pushOperand_eq_take (w : Word P.n) {e : EngineState P} (hcap : e.OPQ.length ≤ P.m + 3) :
    pushOperand w e = { e with OPQ := (e.OPQ ++ [w]).take (P.m + 3) } := by
  obtain ⟨hroom, h⟩ | ⟨hfull, h⟩ := pushOperand_cases w e
  · rw [h, List.take_of_length_le (by simp; omega)]
  · rw [h, List.take_left' (by omega)]

/-- What a cut has dropped is not missed by a second cut after more has arrived. -/
theorem take_take_append {α : Type} (k : Nat) (as bs : List α) : (as.take k ++ bs).take k = (as ++ bs).take k := by
  obtain hle | hge := Nat.le_total as.length k
  · rw [List.take_of_length_le hle]
  · rw [List.take_append_of_le_length hge, List.take_left' (List.length_take_of_le hge)]

theorem run_data (ws : List (Word P.n)) {e : EngineState P} (inp : List (Event P.n)) (out : List (Response P.n))
    (hcap : e.OPQ.length ≤ P.m + 3) :
    run ws.length ⟨P, e, ws.map .data ++ inp, out⟩
      = .next ⟨P, { e with OPQ := (e.OPQ ++ ws).take (P.m + 3) }, inp, out⟩ := by
  induction ws generalizing e with
  | nil => rw [List.append_nil, List.take_of_length_le hcap]; rfl
  | cons w ws ih =>
    have hstep := step_data e (ws.map .data ++ inp) out w
    rw [pushOperand_eq_take w hcap] at hstep
    calc run (ws.length + 1) ⟨P, e, .data w :: (ws.map .data ++ inp), out⟩
        = run ws.length ⟨P, { e with OPQ := (e.OPQ ++ [w]).take (P.m + 3) }, ws.map .data ++ inp, out⟩ :=
          run_succ_of_next hstep
      _ = .next ⟨P, { e with OPQ := ((e.OPQ ++ [w]).take (P.m + 3) ++ ws).take (P.m + 3) }, inp, out⟩ :=
          ih (List.length_take_le ..)
      _ = .next ⟨P, { e with OPQ := (e.OPQ ++ w :: ws).take (P.m + 3) }, inp, out⟩ := by
          rw [take_take_append, List.append_assoc, List.singleton_append]

/-! ### Responses (R64) -/

/-- R64: the responses of one event: one for a command beat, with no Word unless it is `OK`, and none for another. -/
theorem transition_responses {e e' : EngineState P} {ev : Event P.n} {rs : List (Response P.n)}
    (h : Transition e ev e' rs) :
    (∃ c r, ev = .command c ∧ rs = [r] ∧ (r.status ≠ .ok → r.words = [])) ∨
    ((¬ ∃ c, ev = .command c) ∧ rs = []) := by
  cases h with
  | staged | dropped | reset => exact .inr ⟨nofun, rfl⟩
  | reserved | mismatch => exact .inl ⟨_, _, rfl, rfl, fun _ => rfl⟩
  | ksched | enc | enck | round | status | clear => exact .inl ⟨_, _, rfl, rfl, fun hst => absurd rfl hst⟩

/-! ### Later events (R58) -/

theorem run_append_input (k : Nat) {e e' : EngineState P} {inp inp' : List (Event P.n)}
    (more : List (Event P.n)) {out out' : List (Response P.n)} (hk : k ≤ inp.length)
    (h : run k ⟨P, e, inp, out⟩ = .next ⟨P, e', inp', out'⟩) :
    run k ⟨P, e, inp ++ more, out⟩ = .next ⟨P, e', inp' ++ more, out'⟩ := by
  induction k generalizing e inp out with
  | zero => cases h; rfl
  | succ k ih =>
    cases inp with
    | nil => simp at hk
    | cons ev inp =>
      obtain ⟨f, rs, htr⟩ := exists_transition e ev
      rw [run_succ_of_next (step_of_transition inp out htr)] at h
      rw [List.cons_append, run_succ_of_next (step_of_transition (inp ++ more) out htr)]
      exact ih (Nat.le_of_succ_le_succ hk) h

end

/-! ### The statements -/

/-- Settles O18: the two data-beat cases of a transition. -/
theorem dataBeatIsStagedOrDropped : Obligations.DataBeatIsStagedOrDropped := by
  intro P e w inp out
  constructor
  · intro hroom
    simpa using step_of_transition inp out (.staged w hroom)
  · intro hfull
    simpa using step_of_transition inp out (.dropped w hfull)

/-- Settles O19, by induction on the Words that arrive. -/
theorem dataBeatsAreStagedInOrder : Obligations.DataBeatsAreStagedInOrder :=
  fun _ ws _ inp out => run_data ws inp out

/-- Settles O43, by the cases of a transition. -/
theorem oneResponsePerCommandBeat : Obligations.OneResponsePerCommandBeat := by
  intro P e ev inp out
  obtain ⟨e', rs, htr⟩ := exists_transition e ev
  refine ⟨e', rs, step_of_transition inp out htr, ?_⟩
  obtain ⟨c, r, rfl, rfl, hwords⟩ | ⟨hev, rfl⟩ := transition_responses htr
  · simpa using hwords
  · simp [hev]

/-- Settles O55, by induction on the number of steps. -/
theorem laterEventsDoNotChangeEarlierResponses : Obligations.LaterEventsDoNotChangeEarlierResponses :=
  fun _ k _ _ _ _ more _ _ => run_append_input k more

end Sys2Proof.Machine

/-! ## The encodings: opcodes, packets, the written notations, the step on a decoded command -/

namespace Sys2Proof

section
variable {n : Nat}

/-! ### The status codes and the response packet (R73, R74) -/

@[simp] theorem Status.ofCode_code (st : Status) : Status.ofCode st.code = some st := by cases st <;> rfl

theorem Status.ofCode_three : Status.ofCode 3 = none := rfl

theorem Status.code_ne_three (st : Status) : st.code ≠ 3 := by
  intro h
  have hread := st.ofCode_code
  rw [h, Status.ofCode_three] at hread
  cases hread

theorem Response.ofWire_wire (r : Response n) : Response.ofWire r.wire = some r := by
  rw [Response.ofWire, Response.wire, Status.ofCode_code]
  rfl

theorem Response.ofWire_three (ws : List (Word n)) : Response.ofWire (3, ws) = none := by
  rw [Response.ofWire, Status.ofCode_three]
  rfl

/-! ### Every command is well formed (R72, R84) -/

@[simp] theorem Instr.wellFormed_eq_true (i : Instr) : i.wellFormed = true := by cases i <;> rfl

/-! ### Packets (R75) -/

theorem packetsFrom_data_append (staged ws : List (Word n)) (rest : List (Event n)) :
    packetsFrom staged (ws.map .data ++ rest) = packetsFrom (staged ++ ws) rest := by
  induction ws generalizing staged with
  | nil => rw [List.append_nil]; rfl
  | cons w ws ih =>
    calc packetsFrom staged (.data w :: (ws.map .data ++ rest))
        = packetsFrom (staged ++ [w]) (ws.map .data ++ rest) := rfl
      _ = packetsFrom (staged ++ w :: ws) rest := by rw [ih, List.append_assoc, List.singleton_append]

@[simp] theorem packetsFrom_data (staged ws : List (Word n)) : packetsFrom staged (ws.map .data) = [] := by
  have h := packetsFrom_data_append staged ws []
  rwa [List.append_nil] at h

end

namespace Machine
open Safety

section
variable {n : Nat}

/-! ### Assembled commands (R81) -/

/-- R81: the literals of a line stand for the Words that were written down. -/
theorem assemble_command (i : Instr) (ws : List (Word n)) :
    assemble n (.command i (ws.map BitVec.toNat)) = ws.map .data ++ [.command (encode i)] := by
  simp [assemble]

/-- R75, R81: an assembled command is cut off as one packet, whatever follows it. -/
theorem packetsFrom_assemble_append (i : Instr) (ws : List (Word n)) (rest : List (Event n)) :
    packetsFrom [] (assemble n (.command i (ws.map BitVec.toNat)) ++ rest)
      = ⟨ws, encode i⟩ :: packetsFrom [] rest := by
  rw [assemble_command, List.append_assoc, packetsFrom_data_append]
  rfl

/-! ### Hexadecimal numbers (R82) -/

theorem hexValue_digitChar {d : Nat} (hd : d < 16) : hexValue (Nat.digitChar d) = some d := by
  revert d
  decide

@[simp] theorem renderHex_length (k v : Nat) : (renderHex k v).length = k := by
  induction k generalizing v with
  | zero => rfl
  | succ k ih => rw [renderHex, List.length_append, ih]; rfl

theorem readHexFrom_append (acc : Nat) (cs ds : List Char) :
    readHexFrom acc (cs ++ ds) = (readHexFrom acc cs).bind fun v => readHexFrom v ds := by
  induction cs generalizing acc with
  | nil => rfl
  | cons c cs ih =>
    rw [List.cons_append, readHexFrom, readHexFrom]
    cases hexValue c with
    | none => rfl
    | some d => exact ih _

theorem readHexFrom_digitChar (acc : Nat) {d : Nat} (hd : d < 16) :
    readHexFrom acc [Nat.digitChar d] = some (16 * acc + d) := by
  rw [readHexFrom, hexValue_digitChar hd]
  rfl

theorem readHex_renderHex {k v : Nat} (hv : v < 16 ^ k) : readHex (renderHex k v) = some v := by
  induction k generalizing v with
  | zero =>
    obtain rfl : v = 0 := by omega
    rfl
  | succ k ih =>
    have hhigh : readHexFrom 0 (renderHex k (v / 16)) = some (v / 16) :=
      ih (Nat.div_lt_of_lt_mul (by rwa [← Nat.pow_succ']))
    calc readHexFrom 0 (renderHex k (v / 16) ++ [Nat.digitChar (v % 16)])
        = readHexFrom (v / 16) [Nat.digitChar (v % 16)] := by rw [readHexFrom_append, hhigh, Option.bind_some]
      _ = some (16 * (v / 16) + v % 16) := readHexFrom_digitChar _ (Nat.mod_lt v (by omega))
      _ = some v := by rw [Nat.div_add_mod]

theorem two_pow_le_sixteen_pow_hexWidth (n : Nat) : 2 ^ n ≤ 16 ^ hexWidth n :=
  calc 2 ^ n ≤ 2 ^ (4 * hexWidth n) := Nat.pow_le_pow_right (by omega) (by unfold hexWidth; omega)
    _ = 16 ^ hexWidth n := Nat.pow_mul 2 4 _

theorem readWord_renderHex {k : Nat} (hk : 2 ^ n ≤ 16 ^ k) (w : Word n) :
    readWord n k (renderHex k w.toNat) = some w := by
  have hread : readHex (renderHex k w.toNat) = some w.toNat := readHex_renderHex (w.isLt.trans_le hk)
  simp [readWord, hread, w.isLt]

/-! ### Lines that can be read (R81) -/

theorem readLiteral_lt {cs : List Char} {v : Nat} (h : readLiteral n cs = some v) : v < 2 ^ n := by
  unfold readLiteral at h
  split at h
  case h_2 => cases h
  obtain ⟨-, h⟩ := Option.ite_none_right_eq_some.mp h
  split at h
  case h_2 => cases h
  obtain ⟨hlt, heq⟩ := Option.ite_none_right_eq_some.mp h
  exact Option.some.inj heq ▸ hlt

theorem readLiterals_lt {ps : List (List Char)} {vs : List Nat} (h : readLiterals n ps = some vs) :
    ∀ v ∈ vs, v < 2 ^ n := by
  induction ps generalizing vs with
  | nil => cases h; exact List.forall_mem_nil _
  | cons p ps ih =>
    rw [readLiterals] at h
    split at h
    next v vs' hv hvs =>
      cases h
      exact List.forall_mem_cons.mpr ⟨readLiteral_lt hv, ih hvs⟩
    next => cases h

theorem readOperands_lt {cs : List Char} {vs : List Nat} (h : readOperands n cs = some vs) :
    ∀ v ∈ vs, v < 2 ^ n := by
  unfold readOperands at h
  split at h
  · cases h; exact List.forall_mem_nil _
  · exact readLiterals_lt h

/-- R81: a line that has a reading is blank, a directive or a command, with its literals read from some characters. -/
theorem readLine_cases {cs : List Char} {line : AsmLine} (h : readLine n cs = some line) :
    line = .blank ∨ line = .reset ∨
    (∃ rest c, readLiteral 8 rest = some c ∧ line = .byte c) ∨
    (∃ rest ws, readOperands n rest = some ws ∧ line = .data ws) ∨
    ∃ rest i ws, readOperands n rest = some ws ∧ line = .command i ws := by
  simp only [readLine] at h
  split at h
  · cases h; exact .inl rfl
  split at h
  · split at h
    · cases h; exact .inr (.inl rfl)
    · cases h
  split at h
  · obtain ⟨c, hc, rfl⟩ := Option.map_eq_some_iff.mp h
    exact .inr (.inr (.inl ⟨_, c, hc, rfl⟩))
  split at h
  · obtain ⟨ws, hws, rfl⟩ := Option.map_eq_some_iff.mp h
    exact .inr (.inr (.inr (.inl ⟨_, ws, hws, rfl⟩)))
  split at h
  · obtain ⟨ws, hws, rfl⟩ := Option.map_eq_some_iff.mp h
    exact .inr (.inr (.inr (.inr ⟨_, _, ws, hws, rfl⟩)))
  · cases h

end

section
variable {P : CipherParameters}

/-! ### A step and a run on a decoded command (R76) -/

theorem step_of_decode {c : Byte} {i : Instr} (h : decode c = .instr i) (e : EngineState P)
    (inp : List (Event P.n)) (out : List (Response P.n)) :
    step ⟨P, e, .command c :: inp, out⟩ = exec i ⟨P, e, inp, out⟩ := by
  simp only [step, h]

theorem run_add_of_next {j : Nat} (k : Nat) {s t : State} (h : run j s = .next t) :
    run (j + k) s = run k t := by
  induction j generalizing s with
  | zero => cases h; rw [Nat.zero_add]
  | succ j ih =>
    rw [run] at h
    split at h
    next u hu => rw [Nat.add_right_comm, run_succ_of_next hu, ih h]
    next => cases h
    next => cases h

theorem run_one (s : State) : run 1 s = step s := by
  rw [run]
  cases step s <;> rfl

end

/-! ### The statements -/

/-- Settles O12, by induction on the commands: each is cut off as one packet. -/
theorem commandStreamDecodesToItself : Obligations.CommandStreamDecodesToItself := by
  intro n cs tail
  induction cs with
  | nil => simp
  | cons c cs ih =>
    rw [List.flatMap_cons, List.append_assoc, packetsFrom_assemble_append, List.map_cons, ih, decode_encode]
    rfl

/-- Settles O13: the digits written for a Word or a byte are enough for its width, so they read back. -/
theorem eventNotationReadsBack : Obligations.EventNotationReadsBack := by
  intro n ev
  cases ev with
  | data w => exact congrArg (Option.map Event.data) (readWord_renderHex (two_pow_le_sixteen_pow_hexWidth n) w)
  | command c => exact congrArg (Option.map Event.command) (readWord_renderHex (by decide : 2 ^ 8 ≤ 16 ^ 2) c)
  | reset => rfl

/-- Settles O14, by the cases of a line that can be read. -/
theorem readLinesAreWellFormed : Obligations.ReadLinesAreWellFormed := by
  intro n cs line h
  obtain rfl | rfl | ⟨rest, c, hc, rfl⟩ | ⟨rest, ws, hws, rfl⟩ | ⟨rest, i, ws, hws, rfl⟩ := readLine_cases h
  · rfl
  · rfl
  · exact decide_eq_true (readLiteral_lt hc)
  · simpa [AsmLine.wellFormed] using readOperands_lt hws
  · simpa [AsmLine.wellFormed] using readOperands_lt hws

/-- Settles O17: an engine with nothing pending is idle, and every event has a transition. -/
theorem everyStepHasANextState : Obligations.EveryStepHasANextState := by
  rintro ⟨P, e, inp, out⟩
  cases inp with
  | nil => exact ⟨_, step_idle e out⟩
  | cons ev inp =>
    obtain ⟨e', rs, htr⟩ := exists_transition e ev
    exact ⟨_, step_of_transition inp out htr⟩

/-- Settles O56: the data beats of the line stage its Words, and the step after them performs its command. -/
theorem assembledLineRunsItsCommand : Obligations.AssembledLineRunsItsCommand := by
  intro P i ws e inp out hempty hws
  have hdata := run_data (e := e) ws (.command (encode i) :: inp) out (by simp [hempty])
  rw [hempty, List.nil_append, List.take_of_length_le hws] at hdata
  rw [assemble_command, List.append_assoc, List.singleton_append, run_add_of_next 1 hdata, run_one,
    step_of_decode (decode_encode i)]

/-- Settles O10: the six bytes are the encodings of the commands. -/
theorem opcodeMapDecodes : Obligations.OpcodeMapDecodes :=
  ⟨decode_encode .ksched, decode_encode .enc, decode_encode .enck, decode_encode .round, decode_encode .status,
    decode_encode .clear, fun c => (decode_eq_reserved_iff c).mpr⟩

/-- Settles O11: decoding inverts the encoding on either side. -/
theorem decodeAndEncodeAgree : Obligations.DecodeAndEncodeAgree :=
  fun i _ => ⟨eq_encode_of_decode, fun hc => hc ▸ decode_encode i⟩

/-- Settles O15, from the three codes. -/
theorem responsePacketReadsBack : Obligations.ResponsePacketReadsBack :=
  fun _ r => ⟨r.ofWire_wire, r.status.code_ne_three, Response.ofWire_three⟩

/-- Settles O16, from the case of a step on a command beat. -/
theorem stepRunsTheDecodedCommand : Obligations.StepRunsTheDecodedCommand :=
  fun _ e _ _ inp out h => step_of_decode h e inp out

end Machine
end Sys2Proof

/-! ## The round function: the laws of rotation, its inverse, its special values, ROUND -/

namespace Sys2Proof

theorem CipherParameters.n_pos (P : CipherParameters) : 0 < P.n := Nat.lt_of_lt_of_le (by decide) P.five_le_n

namespace Machine

section
variable {n : Nat}

/-! ### The laws of rotation (R94)

The bits of a rotation to the right are known, so a law of `rotr` is proved bit by bit; `rotl` is the inverse of `rotr`,
and each law of `rotl` is carried over from one of `rotr`. -/

@[simp] theorem rotl_width (w : Word n) : rotl w n = w := by rw [← rotl_mod, Nat.mod_self, rotl_zero]

@[simp] theorem rotr_width (w : Word n) : rotr w n = w := by rw [← rotr_mod, Nat.mod_self, rotr_zero]

variable (hn : 0 < n)
include hn

theorem rotr_rotl (w : Word n) (r : Nat) : rotr (rotl w r) r = w :=
  BitVec.eq_of_getLsbD_eq fun _ hi => (getLsbD_rotr _ r hn hi).trans (getLsbD_rotl w r hn hi)

/-- There are finitely many Words, so the left inverse of `rotl` is also its right inverse. -/
theorem rotl_rotr (w : Word n) (r : Nat) : rotl (rotr w r) r = w := by
  have hleft : Function.LeftInverse (rotr · r) (rotl (n := n) · r) := (rotr_rotl hn · r)
  exact hleft.rightInverse_of_card_le le_rfl w

theorem rotl_eq_iff {u w : Word n} {r : Nat} : rotl u r = w ↔ u = rotr w r :=
  ⟨fun h => by rw [← h, rotr_rotl hn], fun h => by rw [h, rotl_rotr hn]⟩

theorem rotr_rotr (w : Word n) (r r' : Nat) : rotr (rotr w r) r' = rotr w (r + r') := by
  refine BitVec.eq_of_getLsbD_eq fun i hi => ?_
  have hsum : ((i + r' % n) % n + r % n) % n = (i + (r + r') % n) % n := by
    simp only [Nat.add_mod_mod, Nat.mod_add_mod, Nat.add_right_comm, Nat.add_assoc]
  rw [getLsbD_rotr _ r' hn hi, getLsbD_rotr w r hn (Nat.mod_lt _ hn), hsum, getLsbD_rotr w _ hn hi]

theorem rotr_xor (u w : Word n) (r : Nat) : rotr (u ^^^ w) r = rotr u r ^^^ rotr w r :=
  BitVec.eq_of_getLsbD_eq fun _ hi => by simp only [BitVec.getLsbD_xor, getLsbD_rotr _ r hn hi]

theorem rotr_zeroWord (r : Nat) : rotr 0#n r = 0#n :=
  BitVec.eq_of_getLsbD_eq fun _ hi => by
    rw [getLsbD_rotr _ r hn hi, BitVec.getLsbD_zero, BitVec.getLsbD_zero]

theorem rotr_allOnes (r : Nat) : rotr (BitVec.allOnes n) r = BitVec.allOnes n :=
  BitVec.eq_of_getLsbD_eq fun _ hi => by
    rw [getLsbD_rotr _ r hn hi, BitVec.getLsbD_allOnes, BitVec.getLsbD_allOnes, decide_eq_true hi,
      decide_eq_true (Nat.mod_lt _ hn)]

theorem rotl_eq_rotr (w : Word n) (r : Nat) : rotl w r = rotr w (n - r % n) := by
  have hturn : (n - r % n + r) % n = 0 := by
    rw [← Nat.add_mod_mod, Nat.sub_add_cancel (Nat.mod_lt r hn).le, Nat.mod_self]
  rw [rotl_eq_iff hn, rotr_rotr hn, ← rotr_mod, hturn, rotr_zero]

theorem rotl_rotl (w : Word n) (r r' : Nat) : rotl (rotl w r) r' = rotl w (r + r') := by
  rw [rotl_eq_iff hn, rotl_eq_iff hn, rotr_rotr hn, Nat.add_comm r', rotr_rotl hn]

theorem rotl_xor (u w : Word n) (r : Nat) : rotl (u ^^^ w) r = rotl u r ^^^ rotl w r := by
  rw [rotl_eq_iff hn, rotr_xor hn, rotr_rotl hn, rotr_rotl hn]

theorem rotl_zeroWord (r : Nat) : rotl 0#n r = 0#n := (rotl_eq_iff hn).mpr (rotr_zeroWord hn r).symm

theorem rotl_allOnes (r : Nat) : rotl (BitVec.allOnes n) r = BitVec.allOnes n :=
  (rotl_eq_iff hn).mpr (rotr_allOnes hn r).symm

end

section
variable {P : CipherParameters}

/-! ### The inverse of the round function (R95) -/

theorem rkInv_eq (k : Word P.n) (block : Block P.n) :
    RkInv P k block =
      (rotl ((block.1 ^^^ k) - rotr (block.2 ^^^ block.1) P.b) P.a, rotr (block.2 ^^^ block.1) P.b) := rfl

theorem rkInv_rk (k : Word P.n) (block : Block P.n) : RkInv P k (Rk P k block) = block := by
  have hy : rotr ((Rk P k block).2 ^^^ (Rk P k block).1) P.b = block.2 := by
    simp [rk_eq, rotr_rotl P.n_pos]
  have hx : ((Rk P k block).1 ^^^ k) - block.2 = rotr block.1 P.a := by
    simp [rk_eq]
  rw [rkInv_eq, hy, hx, rotl_rotr P.n_pos]

theorem rk_rkInv (k : Word P.n) (block : Block P.n) : Rk P k (RkInv P k block) = block := by
  have hx : (rotr (RkInv P k block).1 P.a + (RkInv P k block).2) ^^^ k = block.1 := by
    simp [rkInv_eq, rotr_rotl P.n_pos]
  have hy : rotl (RkInv P k block).2 P.b ^^^ block.1 = block.2 := by
    simp [rkInv_eq, rotl_rotr P.n_pos]
  rw [rk_eq, hx, hy]

/-! ### Special values of the round function (R96) -/

theorem rk_zeroBlock (k : Word P.n) : Rk P k (0, 0) = (k, k) := by
  simp [rk_eq, rotr_zeroWord P.n_pos, rotl_zeroWord P.n_pos]

theorem rk_zeroKey_zero_right (x : Word P.n) : Rk P 0 (x, 0) = (rotr x P.a, rotr x P.a) := by
  simp [rk_eq, rotl_zeroWord P.n_pos]

theorem rk_zeroKey_zero_left (y : Word P.n) : Rk P 0 (0, y) = (y, rotl y P.b ^^^ y) := by
  simp [rk_eq, rotr_zeroWord P.n_pos]

theorem allOnes_add_allOnes_xor_allOnes (n : Nat) :
    (BitVec.allOnes n + BitVec.allOnes n) ^^^ BitVec.allOnes n = 1 := by
  rw [BitVec.xor_allOnes, ← BitVec.neg_one_eq_allOnes, BitVec.not_eq_neg_add]
  simp

theorem rk_allOnes :
    Rk P (BitVec.allOnes P.n) (BitVec.allOnes P.n, BitVec.allOnes P.n) = (1, BitVec.allOnes P.n - 1) := by
  rw [rk_eq, rotr_allOnes P.n_pos, rotl_allOnes P.n_pos, allOnes_add_allOnes_xor_allOnes, BitVec.allOnes_xor,
    BitVec.allOnes_sub_eq_not]

theorem rk_xor_key (k d : Word P.n) (block : Block P.n) :
    Rk P (k ^^^ d) block = ((Rk P k block).1 ^^^ d, (Rk P k block).2 ^^^ d) := by
  simp only [rk_eq, BitVec.xor_assoc]

end

/-! ### The statements -/

/-- Settles O6: the laws of `rotr` bit by bit, those of `rotl` from its being the inverse. -/
theorem rotationLaws : Obligations.RotationLaws := fun _ u w r r' hn =>
  ⟨rotl_zero w, rotr_zero w, rotl_width w, rotr_width w, (rotl_mod w r).symm, (rotr_mod w r).symm,
    rotr_rotl hn w r, rotl_rotr hn w r, rotl_eq_rotr hn w r, rotl_rotl hn w r r', rotl_xor hn u w r,
    rotl_zeroWord hn r, rotr_zeroWord hn r, rotl_allOnes hn r, rotr_allOnes hn r⟩

/-- Settles O8: each component comes back, the second one first. -/
theorem roundFunctionIsReversible : Obligations.RoundFunctionIsReversible :=
  fun _ k block => ⟨rkInv_rk k block, rk_rkInv k block⟩

/-- Settles O9: rotation fixes the all-zero and the all-one Word, and the key enters by exclusive or alone. -/
theorem roundFunctionSpecialValues : Obligations.RoundFunctionSpecialValues :=
  fun _ k d x y => ⟨rk_zeroBlock 0, rk_zeroBlock k, rk_zeroKey_zero_right x, rk_zeroKey_zero_left y, rk_allOnes,
    rk_xor_key k d (x, y)⟩

/-- Settles O7, from the equation of the round function. -/
theorem roundFunctionFormula : Obligations.RoundFunctionFormula := by
  intro P k x y x' y' h
  rw [rk_eq, Prod.mk.injEq] at h
  obtain ⟨rfl, rfl⟩ := h
  exact ⟨by rw [BitVec.toNat_xor, BitVec.toNat_add], rfl⟩

/-- Settles O25: the equation of ROUND on three Words, and the rejection of a command by its payload count. -/
theorem roundAppliesTheRoundFunction : Obligations.RoundAppliesTheRoundFunction := by
  intro P e inp out
  constructor
  · intro k x y hq
    rw [exec_round, roundCommand_eq hq, rk_eq]
    rfl
  · intro hcount
    rw [exec_eq, engineCommand_of_mismatch (.inl hcount)]

end Machine
end Sys2Proof

/-! ## The key schedule: KS.LOAD, KS.STEP, the two sequences behind the queue, KSCHED -/

namespace Sys2Proof.Machine

section
variable {P : CipherParameters}

/-! ### The queue, entry by entry (R110, R111) -/

@[simp] theorem key_queue_getElem (key : Key P) {j : Nat} (hj : j < P.m - 1) : (Key.queue key)[j] = key[j] := by
  simp [Key.queue]

@[simp] theorem queue_push_getElem_zero (q : LQueue P) (w : Word P.n) :
    (LQueue.push q w)[0]'(by have := P.two_le_m; omega) = w := rfl

@[simp] theorem queue_push_getElem_succ (q : LQueue P) (w : Word P.n) {j : Nat} (hj : j + 1 < P.m - 1) :
    (LQueue.push q w)[j + 1] = q[j] := by
  simp [LQueue.push]

/-! ### The key schedule as two sequences (R112, R114, R115) -/

/-- R112: `(λ_i, k_i)`, the queue and the round key of the recurrence after `i` transitions. -/
def scheduleState (key : Key P) : Nat → LQueue P × Word P.n
  | 0 => (Key.queue key, Key.last key)
  | i + 1 => scheduleStep i (scheduleState key i).1 (scheduleState key i).2

/-- R115: `ℓ_i`, the queue word that transition `i` consumes. -/
def queueWord (key : Key P) (i : Nat) : Word P.n := LQueue.oldest (scheduleState key i).1

/-- R112: `k_i`, for every `i`. -/
def roundKey (key : Key P) (i : Nat) : Word P.n := (scheduleState key i).2

theorem scheduleFrom_scheduleState (key : Key P) (count i : Nat) :
    scheduleFrom i (scheduleState key i).1 (scheduleState key i).2 count
      = (List.range' i (count + 1)).map (roundKey key) := by
  induction count generalizing i with
  | zero => rfl
  | succ count ih => exact congrArg (roundKey key i :: ·) (ih (i + 1))

theorem keySchedule_eq_map_roundKey (key : Key P) : keySchedule key = (List.range P.T).map (roundKey key) := by
  have hT : P.T - 1 + 1 = P.T := Nat.sub_add_cancel (by have := P.twentyTwo_le_T; omega)
  rw [List.range_eq_range', ← hT]
  exact scheduleFrom_scheduleState key (P.T - 1) 0

/-- An entry of the queue moves one place toward the back in each transition, so it is consumed when it gets there. -/
theorem scheduleState_getElem (key : Key P) (i : Nat) {j : Nat} (hj : j < P.m - 1) :
    (scheduleState key i).1[j] = queueWord key (i + (P.m - 2 - j)) := by
  obtain ⟨d, hd⟩ : ∃ d, P.m - 2 - j = d := ⟨_, rfl⟩
  induction d generalizing i j with
  | zero =>
    obtain rfl : j = P.m - 2 := by omega
    simp [queueWord, LQueue.oldest]
  | succ d ih =>
    have hmoved : (scheduleState key (i + 1)).1[j + 1]'(by omega) = (scheduleState key i).1[j] :=
      queue_push_getElem_succ _ _ (by omega)
    rw [← hmoved, ih (i + 1) (by omega) (by omega)]
    congr 1
    omega

/-- R114(c): the first `m - 1` queue words are Key words, taken from the back. -/
theorem queueWord_of_le (key : Key P) {j : Nat} (hj : j ≤ P.m - 2) :
    queueWord key j = key[P.m - 2 - j]'(by have := P.two_le_m; omega) := by
  have hm := P.two_le_m
  have hentry := scheduleState_getElem key 0 (j := P.m - 2 - j) (by omega)
  rw [Nat.zero_add, Nat.sub_sub_self hj] at hentry
  exact hentry.symm.trans (key_queue_getElem key _)

theorem roundKey_zero (key : Key P) : roundKey key 0 = key[P.m - 1]'(by have := P.two_le_m; omega) := rfl

/-- R111, R114(c): the word pushed to the front in transition `i` is consumed `m - 1` transitions later. -/
theorem queueWord_roundKey_succ (key : Key P) (i : Nat) :
    (queueWord key (i + (P.m - 1)), roundKey key (i + 1))
      = Rk P (word P.n i) (queueWord key i, roundKey key i) := by
  have hm := P.two_le_m
  have hfront := scheduleState_getElem key (i + 1) (j := 0) (by omega)
  rw [show i + 1 + (P.m - 2 - 0) = i + (P.m - 1) by omega] at hfront
  rw [← hfront]
  rfl

section
variable {key key' : Key P}

theorem queueWord_roundKey_succ_congr {i : Nat}
    (h : queueWord key i = queueWord key' i ∧ roundKey key i = roundKey key' i) :
    queueWord key (i + (P.m - 1)) = queueWord key' (i + (P.m - 1)) ∧ roundKey key (i + 1) = roundKey key' (i + 1) := by
  obtain ⟨hl, hk⟩ := h
  rw [← Prod.mk.injEq, queueWord_roundKey_succ, queueWord_roundKey_succ, hl, hk]

/-- R114(b): the way to `ℓ_t` and `k_t` for `t ≤ i` starts from `k_0` and the Key words among `ℓ_0 .. ℓ_i`. -/
theorem queueWord_roundKey_congr {i : Nat} (hlast : roundKey key 0 = roundKey key' 0)
    (hwords : ∀ j, j ≤ i → j ≤ P.m - 2 → queueWord key j = queueWord key' j) (t : Nat) (ht : t ≤ i) :
    queueWord key t = queueWord key' t ∧ roundKey key t = roundKey key' t := by
  have hm := P.two_le_m
  induction t using Nat.strong_induction_on with
  | h t ih =>
    have hnext (s : Nat) (hs : s < t) := queueWord_roundKey_succ_congr (ih s hs (by omega))
    constructor
    · obtain hpushed | hkey := Nat.lt_or_ge (P.m - 2) t
      · obtain ⟨s, rfl⟩ : ∃ s, t = s + (P.m - 1) := ⟨t - (P.m - 1), by omega⟩
        exact (hnext s (by omega)).left
      · exact hwords t ht hkey
    · cases t with
      | zero => exact hlast
      | succ s => exact (hnext s (Nat.lt_succ_self s)).right

end

theorem keySchedule_getLast? (key : Key P) {RK : Vector (Word P.n) P.T} (hRK : RK.toList = keySchedule key) :
    (keySchedule key).getLast? = some (RK[P.T - 1]'(by have := P.twentyTwo_le_T; omega)) := by
  have hT := P.twentyTwo_le_T
  rw [← hRK, List.getLast?_eq_getElem?, Vector.length_toList, List.getElem?_eq_getElem (by simp; omega),
    Vector.getElem_toList]

end

/-! ### The statements -/

/-- Settles O28: the schedule lists the round keys `k_0 .. k_(T-1)`. -/
theorem keyScheduleHasExactlyTWords : Obligations.KeyScheduleHasExactlyTWords := by
  intro P key
  rw [keySchedule_eq_map_roundKey, List.length_map, List.length_range]

/-- Settles O29, with the words that the queue gives out and the round keys as the two sequences. -/
theorem keyScheduleIsTheCustomaryRecurrence : Obligations.KeyScheduleIsTheCustomaryRecurrence := by
  intro P key
  refine ⟨queueWord key, roundKey key, fun _ => queueWord_of_le key, roundKey_zero key, fun i _ => ?_,
    keySchedule_eq_map_roundKey key⟩
  have hstep := queueWord_roundKey_succ key i
  rw [rk_eq, Prod.mk.injEq] at hstep
  obtain ⟨hl, hk⟩ := hstep
  exact ⟨by rw [hl, BitVec.add_comm], by rw [hk, hl]⟩

/-- Settles O30: the queue words among `ℓ_0 .. ℓ_i` that are Key words agree, so `ℓ_i` and `k_i` do, and `k_(i+1)`. -/
theorem roundKeyDependsOnTheLastKeyWords : Obligations.RoundKeyDependsOnTheLastKeyWords := by
  intro P key key' i hlast hwords
  have hqueue (j : Nat) (hji : j ≤ i) (hj : j ≤ P.m - 2) : queueWord key j = queueWord key' j := by
    rw [queueWord_of_le key hj, queueWord_of_le key' hj, hwords j hji hj]
  obtain ⟨-, hnext⟩ := queueWord_roundKey_succ_congr (queueWord_roundKey_congr hlast hqueue i le_rfl)
  simp only [keySchedule_eq_map_roundKey, List.getElem?_map]
  obtain hi | hi := Nat.lt_or_ge (i + 1) P.T
  · rw [List.getElem?_range hi, Option.map_some, Option.map_some, hnext]
  · rw [List.getElem?_eq_none (by simpa using hi)]
    rfl

/-- Settles O31: the key derivation as a whole for a Key, and the rejection by the payload count otherwise. -/
theorem kschedDerivesCachesAndReturnsTheKeys : Obligations.KschedDerivesCachesAndReturnsTheKeys := by
  intro P e inp out
  constructor
  · intro key hq
    obtain ⟨L', k, RK', hderive, rfl, hRK⟩ := deriveKeys_eq key (takePayload e)
    refine ⟨L', _, RK', hRK, keySchedule_getLast? key hRK, ?_⟩
    rw [exec_eq, engineCommand, kschedCommand_eq hq, hderive]
    rfl
  · intro hcount
    rw [exec_eq, engineCommand_of_mismatch (.inl hcount)]

/-- Settles O27: the new queue is the old one with the first word of the round function pushed. -/
theorem keyScheduleStep : Obligations.KeyScheduleStep := by
  intro P e hRC l k hlk
  have hT := P.twentyTwo_le_T
  have hstep : scheduleStep e.RC e.L e.K = (LQueue.push e.L l, k) := by
    rw [scheduleStep, LQueue.oldest, hlk]
  refine ⟨LQueue.push e.L l, queue_push_getElem_zero _ _, fun _ hj => queue_push_getElem_succ _ _ hj, ?_⟩
  simp only [ksStep_of_lt (show e.RC + 1 < P.T by omega), hstep]

/-- Settles O26: the queue that KS.LOAD writes is the Key without its last word. -/
theorem keyScheduleLoad : Obligations.KeyScheduleLoad :=
  fun _ key _ => ⟨Key.queue key, Key.last key, fun _ hj => key_queue_getElem key hj, rfl, rfl⟩

end Sys2Proof.Machine

/-! ## The encryptor: the chain of Blocks and its inverse, ENC.LOAD, ENC.STEP, ENC, ENCK -/

namespace Sys2Proof.Machine

section
variable {P : CipherParameters}

/-! ### The fold over the round keys (R130) and its inverse (R136) -/

@[simp] theorem encryptRounds_cons (k : Word P.n) (keys : List (Word P.n)) (block : Block P.n) :
    encryptRounds P (k :: keys) block = encryptRounds P keys (Rk P k block) := rfl

theorem encryptRounds_chain (keys : List (Word P.n)) (B : Nat → Block P.n)
    (hB : ∀ (j : Nat) (h : j < keys.length), B (j + 1) = Rk P keys[j] (B j)) :
    encryptRounds P keys (B 0) = B keys.length := by
  induction keys generalizing B with
  | nil => rfl
  | cons k keys ih =>
    have hfirst : B 1 = Rk P k (B 0) := hB 0 (by simp)
    rw [encryptRounds_cons, ← hfirst]
    exact ih (fun j => B (j + 1)) fun j hj => hB (j + 1) (by simpa using hj)

/-- R136: the inverse of `encryptRounds P keys`; it undoes the last round key first. Like `RkInv`, a property only. -/
def decryptRounds (P : CipherParameters) (keys : List (Word P.n)) (block : Block P.n) : Block P.n :=
  keys.foldr (RkInv P) block

@[simp] theorem decryptRounds_cons (k : Word P.n) (keys : List (Word P.n)) (block : Block P.n) :
    decryptRounds P (k :: keys) block = RkInv P k (decryptRounds P keys block) := rfl

theorem foldl_rkInv_reverse (keys : List (Word P.n)) (block : Block P.n) :
    keys.reverse.foldl (fun b k => RkInv P k b) block = decryptRounds P keys block := List.foldl_reverse

theorem decryptRounds_encryptRounds (keys : List (Word P.n)) (block : Block P.n) :
    decryptRounds P keys (encryptRounds P keys block) = block := by
  induction keys generalizing block with
  | nil => rfl
  | cons k keys ih => rw [encryptRounds_cons, decryptRounds_cons, ih, rkInv_rk]

theorem encryptRounds_decryptRounds (keys : List (Word P.n)) (block : Block P.n) :
    encryptRounds P keys (decryptRounds P keys block) = block := by
  induction keys with
  | nil => rfl
  | cons k keys ih => rw [encryptRounds_cons, decryptRounds_cons, rk_rkInv, ih]

theorem encryptRounds_bijective (keys : List (Word P.n)) : Function.Bijective (encryptRounds P keys) :=
  Function.bijective_iff_has_inverse.mpr
    ⟨decryptRounds P keys, decryptRounds_encryptRounds keys, encryptRounds_decryptRounds keys⟩

/-! ### ENC under a cached key schedule, and ENCK as that (R134, R135) -/

theorem encCommand_eq_of_keySchedule {e : EngineState P} {key : Key P} {x y x' y' : Word P.n}
    (hq : e.OPQ = [x, y]) (hv : e.RKV = true) (hRK : e.RK.toList = keySchedule key)
    (hc : encrypt key (x, y) = (x', y')) :
    encCommand e = ({ e with OPQ := [], X := x', Y := y', RC := P.T }, ⟨.ok, [x', y']⟩) :=
  encCommand_eq hq hv (by rw [hRK]; exact hc)

theorem enckCommand_eq_encCommand (key : Key P) (x y : Word P.n) (e : EngineState P) :
    enckCommand { e with OPQ := key.toList ++ [x, y] }
      = encCommand { deriveKeys key (takePayload e) with OPQ := [x, y] } := by
  cases hc : encrypt key (x, y) with
  | mk x' y' =>
    have hqueue : (deriveKeys key (takePayload e)).OPQ = [] := deriveKeys_OPQ ..
    have henc := encCommand_eq_of_keySchedule (e := { deriveKeys key (takePayload e) with OPQ := [x, y] }) rfl
      (deriveKeys_RKV key (takePayload e)) (deriveKeys_RK_toList ..) hc
    rw [enckCommand_eq rfl hc, henc, ← hqueue]
    rfl

end

/-! ### The statements -/

/-- Settles O33: one enabled step is the equation of ENC.STEP, and `T` of them are the state that ENC's body leaves. -/
theorem encryptorStep : Obligations.EncryptorStep := by
  intro P e hv
  constructor
  · intro hRC x y hxy
    rw [encStep_of_lt hRC hv, hxy]
  · intro block x y hc
    exact congrArg Prod.fst (encryptBlock_eq hv hc)

/-- Settles O34: the equation of ENC where it is accepted, and the rejection by the count or for want of keys. -/
theorem encEncryptsUnderTheCachedKeys : Obligations.EncEncryptsUnderTheCachedKeys := by
  intro P e inp out
  constructor
  · intro x y x' y' hq hv hc
    rw [exec_enc, encCommand_eq hq hv hc]
  · intro hbad
    rw [exec_eq, engineCommand_of_mismatch (hbad.imp_right fun hv => ⟨rfl, hv⟩)]

/-- Settles O35, by induction on the round keys: the chain without its first Block starts from the second one. -/
theorem encryptRoundsIsTheChainOfBlocks : Obligations.EncryptRoundsIsTheChainOfBlocks :=
  fun _ => encryptRounds_chain

/-- Settles O36: the Key is the one whose schedule the invariant says is cached. -/
theorem encResponseIsAnEncryption : Obligations.EncResponseIsAnEncryption := by
  intro P e x y inp out hinv hv hq
  obtain ⟨key, hRK⟩ := hinv.keys hv
  refine ⟨key, (encCommand e).1, hRK, ?_⟩
  cases hc : encrypt key (x, y) with
  | mk x' y' => rw [exec_enc, encCommand_eq_of_keySchedule hq hv hRK hc]

/-- Settles O37: the key derivation as a whole, with the encrypted Block over it, and the rejection by the payload
count. -/
theorem enckSchedulesAndEncrypts : Obligations.EnckSchedulesAndEncrypts := by
  intro P e inp out
  constructor
  · intro key x y x' y' hq hc
    obtain ⟨L', k, RK', hderive, rfl, hRK⟩ := deriveKeys_eq key (takePayload e)
    refine ⟨L', _, RK', hRK, keySchedule_getLast? key hRK, ?_⟩
    rw [exec_enck, enckCommand_eq hq hc, hderive]
    rfl
  · intro hcount
    rw [exec_eq, engineCommand_of_mismatch (.inl hcount)]

/-- Settles O38: what KSCHED leaves is the key derivation that ENCK does itself, and ENC does the rest. -/
theorem enckIsKschedThenEnc : Obligations.EnckIsKschedThenEnc := by
  intro P key x y e inp out
  refine ⟨_, _, _, _, exec_ksched .., exec_enc .., ?_⟩
  rw [exec_enck, enckCommand_eq_encCommand, kschedCommand_eq rfl]
  rfl

/-- Settles O57: each round is undone by `RkInv`, the last round first. -/
theorem encryptionIsInjective : Obligations.EncryptionIsInjective :=
  fun _ keys key => ⟨encryptRounds_bijective keys,
    fun block => (foldl_rkInv_reverse keys _).trans (decryptRounds_encryptRounds keys block),
    (encryptRounds_bijective (keySchedule key)).injective⟩

/-- Settles O32, by the definition of ENC.LOAD. -/
theorem encryptorLoad : Obligations.EncryptorLoad := fun _ _ _ _ => rfl

end Sys2Proof.Machine

/-! ## The system commands: STATUS, CLEAR -/

namespace Sys2Proof.Machine

/-- R161(a): a command that takes no Word is turned away by any Word staged before it. -/
theorem exec_of_stray_data {P : CipherParameters} {i : Instr} (hi : cnt P i = 0) {e : EngineState P}
    (hstray : e.OPQ ≠ []) (inp : List (Event P.n)) (out : List (Response P.n)) :
    exec i ⟨P, e, inp, out⟩
      = .next ⟨P, { e with OPQ := [], SHAPE := true }, inp, out ++ [⟨.shapeMismatch, []⟩]⟩ := by
  have hcount : e.OPQ.length ≠ cnt P i := by rwa [hi, Ne, List.length_eq_zero_iff]
  rw [exec_eq, engineCommand_of_mismatch (.inl hcount)]

/-! ### The statements -/

/-- Settles O39: the equation of STATUS with nothing staged, where the value of its Word is known, and the rejection by
stray data. -/
theorem statusReportsTheFlags : Obligations.StatusReportsTheFlags := by
  intro P e inp out
  constructor
  · intro hq
    refine ⟨statusWord e, statusWord_toNat e, ?_⟩
    rw [exec_status, statusCommand_eq hq]
    rfl
  · exact fun hstray => exec_of_stray_data rfl hstray inp out

/-- Settles O41: the equation of CLEAR with nothing staged, whose next engine state is a reset one, and the rejection by
stray data. -/
theorem clearEntersTheResetState : Obligations.ClearEntersTheResetState := by
  intro P e inp out
  constructor
  · intro hq
    refine ⟨resetEngine (takePayload e), ?_, resetEngine_RKV _, resetEngine_SHAPE _, resetEngine_ILL _,
      resetEngine_OPQ _, resetEngine_RC_le _⟩
    rw [exec_clear, clearCommand_eq hq]
  · exact fun hstray => exec_of_stray_data rfl hstray inp out

end Sys2Proof.Machine

/-! ## The exceptions: when each is raised, what it leaves, and what an accepted command answers -/

namespace Sys2Proof.Machine
open Safety

section
variable {P : CipherParameters} {e e' e₁ e₂ : EngineState P} {ev : Event P.n} {rs rs₁ rs₂ : List (Response P.n)}

/-! ### An exception as a transition (R161, R163, R164) -/

/-- R76: an event in an engine state has one outcome. -/
theorem transition_unique (h₁ : Transition e ev e₁ rs₁) (h₂ : Transition e ev e₂ rs₂) : e₁ = e₂ ∧ rs₁ = rs₂ := by
  have h := (step_of_transition [] [] h₁).symm.trans (step_of_transition [] [] h₂)
  simpa using h

theorem transition_of_raisesShape (h : raisesShape e ev) :
    Transition e ev { e with OPQ := [], SHAPE := true } [⟨.shapeMismatch, []⟩] := by
  obtain ⟨i, rfl, hbad⟩ := raisesShape_iff.mp h
  exact .mismatch i hbad

theorem transition_of_raisesIllegal (h : raisesIllegal ev) :
    Transition e ev { e with OPQ := [], ILL := true } [⟨.illegal, []⟩] := by
  obtain ⟨c, rfl, hc⟩ := raisesIllegal_iff.mp h
  exact .reserved c hc

/-- R163: the opcode of a command is no reserved one. -/
theorem not_raisesIllegal_encode (i : Instr) : ¬ raisesIllegal (.command (encode i) : Event P.n) := by
  simp [raisesIllegal_iff]

theorem not_raisesIllegal_of_raisesShape (h : raisesShape e ev) : ¬ raisesIllegal ev := by
  obtain ⟨i, rfl, -⟩ := raisesShape_iff.mp h
  exact not_raisesIllegal_encode i

/-! ### Events that raise no exception (R171) -/

theorem transition_status_ok (h : Transition e ev e' rs) (hshape : ¬ raisesShape e ev)
    (hillegal : ¬ raisesIllegal ev) : ∀ r ∈ rs, r.status = .ok := by
  cases h with
  | staged | dropped | reset => nofun
  | reserved c hc => exact absurd (raisesIllegal_iff.mpr ⟨c, rfl, hc⟩) hillegal
  | mismatch i hbad => exact absurd (raisesShape_iff.mpr ⟨i, rfl, hbad⟩) hshape
  | ksched | enc | enck | round | status | clear => exact List.forall_mem_singleton.mpr rfl

/-- R161, R163: the responses to an event tell which exception it raised. -/
theorem transition_reports_exceptions (h : Transition e ev e' rs) :
    ((∃ r ∈ rs, r.status = .shapeMismatch) ↔ raisesShape e ev) ∧
    ((∃ r ∈ rs, r.status = .illegal) ↔ raisesIllegal ev) := by
  by_cases hshape : raisesShape e ev
  · obtain ⟨-, rfl⟩ := transition_unique h (transition_of_raisesShape hshape)
    simp [hshape, not_raisesIllegal_of_raisesShape hshape]
  by_cases hillegal : raisesIllegal ev
  · obtain ⟨-, rfl⟩ := transition_unique h (transition_of_raisesIllegal hillegal)
    simp [hshape, hillegal]
  · have hok := transition_status_ok h hshape hillegal
    simp +contextual [hshape, hillegal, hok]

/-! ### Accepted commands (R73, R77, R171) -/

theorem transition_response_of_accepts {i : Instr} (h : Transition e ev e' rs) (hacc : Accepts e i ev) :
    ∃ ws, rs = [⟨.ok, ws⟩] ∧ ws.length = responseCount P i := by
  cases h with
  | staged | dropped | reset => simp at hacc
  | reserved c hc => exact absurd hacc (not_accepts_of_reserved hc i)
  | mismatch j hbad => simp [hbad] at hacc
  | ksched key hq =>
    obtain ⟨rfl, -⟩ := (accepts_command_encode ..).mp hacc
    exact ⟨_, rfl, keyScheduleHasExactlyTWords P key⟩
  | enc | enck | round | status | clear =>
    obtain ⟨rfl, -⟩ := (accepts_command_encode ..).mp hacc
    exact ⟨_, rfl, rfl⟩

theorem not_raisesShape_of_accepts {i : Instr} (hacc : Accepts e i ev) : ¬ raisesShape e ev := by
  obtain ⟨rfl, hgood⟩ := hacc
  rw [raisesShape_iff]
  rintro ⟨j, hj, hbad⟩
  rw [Event.command.injEq, encode_inj] at hj
  exact hgood (hj ▸ hbad)

end

/-! ### The statements -/

/-- Settles O20: a byte is reserved, with the transition of IllegalCommand, or it is the encoding of a command. -/
theorem reservedOpcodeRaisesIllegalCommand : Obligations.ReservedOpcodeRaisesIllegalCommand := by
  intro P e c inp out
  constructor
  · intro hc
    exact step_of_transition inp out (.reserved c ((decode_eq_reserved_iff c).mpr hc))
  · intro hlow hhigh
    obtain ⟨i, rfl⟩ | hc := eq_encode_or_reserved c
    · exact ⟨i, rfl, step_of_decode (decode_encode i) e inp out⟩
    · obtain rfl | hc := (decode_eq_reserved_iff c).mp hc
      · exact absurd hlow (by decide)
      · omega

/-- Settles O21: a wrong count is the first of the two situations in which a command is turned away whole. -/
theorem wrongPayloadCountIsRejectedWhole : Obligations.WrongPayloadCountIsRejectedWhole := by
  intro P i e inp out hcount
  rw [exec_eq, engineCommand_of_mismatch (.inl hcount)]

/-- Settles O42: the command's beat is accepted, so its transition answers `OK` and raises nothing. -/
theorem acceptedCommandRespondsOk : Obligations.AcceptedCommandRespondsOk := by
  intro P i e inp out hcount hkeys
  have hacc : Accepts e i (.command (encode i)) := ⟨rfl, by simpa [Mismatch, hcount] using hkeys⟩
  obtain ⟨e', rs, htr⟩ := exists_transition_command e i
  obtain ⟨ws, rfl, hws⟩ := transition_response_of_accepts htr hacc
  have hexec := (step_of_decode (decode_encode i) e inp out).symm.trans (step_of_transition inp out htr)
  refine ⟨e', ws, hexec, hws, fun hset => ?_, fun hset => ?_⟩
  · exact (((transition_SHAPE htr).mp hset).resolve_left (not_raisesShape_of_accepts hacc)).1
  · exact (((transition_ILL htr).mp hset).resolve_left (not_raisesIllegal_encode i)).1

/-- Settles O44: every event has a transition, whose responses tell which exception it raised. -/
theorem exceptionIsReportedExactlyWhenRaised : Obligations.ExceptionIsReportedExactlyWhenRaised := by
  intro P e ev inp out
  obtain ⟨e', rs, htr⟩ := exists_transition e ev
  exact ⟨e', rs, step_of_transition inp out htr, transition_reports_exceptions htr⟩

/-- Settles O51: an event that raises an exception has the transition of that exception and no other. -/
theorem rejectedCommandHasNoPartialEffect : Obligations.RejectedCommandHasNoPartialEffect := by
  intro P e e' ev inp out out' h
  obtain ⟨rs, rfl, htr⟩ := transition_of_step h
  constructor
  · intro hshape
    obtain ⟨rfl, rfl⟩ := transition_unique htr (transition_of_raisesShape hshape)
    exact ⟨rfl, rfl⟩
  · intro hillegal
    obtain ⟨rfl, rfl⟩ := transition_unique htr (transition_of_raisesIllegal hillegal)
    exact ⟨rfl, rfl⟩

/-- Settles O24: the step of an engine with no event pending. -/
theorem idleEngineKeepsItsState : Obligations.IdleEngineKeepsItsState := fun _ e out => step_idle e out

end Sys2Proof.Machine

/-! ## Reset and hazards: the reset state, ENC without a key, CLEAR after stray data, KSCHED turned away -/

namespace Sys2Proof.Machine
open Safety

section
variable {P : CipherParameters} {e e' : EngineState P} {ev : Event P.n} {rs : List (Response P.n)}

theorem run_succ_of_transition (k : Nat) (inp : List (Event P.n)) (out : List (Response P.n))
    (h : Transition e ev e' rs) : run (k + 1) ⟨P, e, ev :: inp, out⟩ = run k ⟨P, e', inp, out ++ rs⟩ :=
  run_succ_of_next (step_of_transition inp out h)

/-- R75: any command beat, accepted or not, leaves the queue empty. -/
theorem transition_command_OPQ {c : Byte} (h : Transition e (.command c) e' rs) : e'.OPQ = [] := by
  cases h with
  | reserved | mismatch | enc | round | status | clear => rfl
  | ksched | enck => exact deriveKeys_OPQ ..

/-! ### Without a valid key (R25, R192) -/

theorem not_derivesKeys_of_resets (hreset : resets e ev) : ¬ derivesKeys e ev := by
  rw [derivesKeys_iff]
  obtain rfl | ⟨rfl, -⟩ := resets_iff.mp hreset
  · simp
  · simp

theorem transition_RKV_false_of_resets (h : Transition e ev e' rs) (hreset : resets e ev) : e'.RKV = false := by
  rw [Bool.eq_false_iff, Ne, transition_RKV h]
  simp [hreset, not_derivesKeys_of_resets hreset]

theorem transition_keeps_RKV_false (h : Transition e ev e' rs) (hv : e.RKV = false) (hkeys : ¬ derivesKeys e ev) :
    e'.RKV = false := by
  rw [Bool.eq_false_iff, Ne, transition_RKV h]
  simp [hv, hkeys]

/-- R25: the keys stay invalid through any events none of which derives keys in the engine state that takes it. -/
theorem run_keeps_RKV_false (evs : List (Event P.n)) {e : EngineState P} (inp : List (Event P.n))
    (out : List (Response P.n)) (hv : e.RKV = false)
    (hkeys : ∀ (k : Nat) (f : EngineState P) (ev : Event P.n) (inp' : List (Event P.n)) (out' : List (Response P.n)),
      k < evs.length → run k ⟨P, e, evs ++ inp, out⟩ = .next ⟨P, f, ev :: inp', out'⟩ → ¬ derivesKeys f ev) :
    ∃ (e' : EngineState P) (out' : List (Response P.n)),
      run evs.length ⟨P, e, evs ++ inp, out⟩ = .next ⟨P, e', inp, out'⟩ ∧ e'.RKV = false := by
  induction evs generalizing e out with
  | nil => exact ⟨e, out, rfl, hv⟩
  | cons ev evs ih =>
    obtain ⟨f, rs, htr⟩ := exists_transition e ev
    have hrun (k : Nat) := run_succ_of_transition k (evs ++ inp) out htr
    have hev : ¬ derivesKeys e ev := hkeys 0 e ev (evs ++ inp) out (Nat.succ_pos _) rfl
    obtain ⟨e', out', hend, hv'⟩ := ih (out ++ rs) (transition_keeps_RKV_false htr hv hev)
      fun k g ev' inp' out' hk h => hkeys (k + 1) g ev' inp' out' (Nat.succ_lt_succ hk) ((hrun k).trans h)
    exact ⟨e', out', (hrun evs.length).trans hend, hv'⟩

end

/-! ### The statements -/

/-- Settles O58: the keys are invalid in each reset state and stay so up to the ENC, which is turned away for want of
them. -/
theorem encBeforeAnyKeyIsRejected : Obligations.EncBeforeAnyKeyIsRejected := by
  refine ⟨fun P => powerUp_RKV, fun P e ev inp out hreset => ?_, fun P e evs inp out hv hkeys => ?_⟩
  · obtain ⟨e', rs, htr⟩ := exists_transition e ev
    exact ⟨e', out ++ rs, step_of_transition inp out htr, transition_RKV_false_of_resets htr hreset⟩
  · obtain ⟨e', out', hrun, hv'⟩ := run_keeps_RKV_false evs (.command 0x02 :: inp) out hv hkeys
    refine ⟨e', out', hrun, hv', ?_⟩
    rw [run_add_of_next 1 hrun, run_one]
    exact step_of_transition inp out' (.mismatch .enc (.inr ⟨rfl, hv'⟩))

/-- Settles O59: the first CLEAR leaves the queue empty whether it is accepted or not, so the second is accepted. -/
theorem clearSentTwiceRecovers : Obligations.ClearSentTwiceRecovers := by
  intro P e inp out
  obtain ⟨f, r, hfirst⟩ : ∃ f r, Transition e (.command 0x06) f [r] := by
    obtain ⟨f, rs, h⟩ := exists_transition e (.command 0x06)
    obtain ⟨c, r, -, rfl, -⟩ | ⟨hev, -⟩ := transition_responses h
    · exact ⟨f, r, h⟩
    · exact absurd ⟨_, rfl⟩ hev
  have hsecond : Transition f (.command 0x06) (resetEngine (takePayload f)) [⟨.ok, []⟩] :=
    .clear (transition_command_OPQ hfirst)
  refine ⟨resetEngine (takePayload f), r, ?_, rfl, ⟨rfl, rfl⟩, rfl⟩
  rw [run_succ_of_transition 1 _ out hfirst, run_succ_of_transition 0 inp _ hsecond, run]

/-- Settles O60: the rejected KSCHED leaves the store and `RKV`, so the two Words are staged in an empty queue and the ENC
is accepted. -/
theorem rejectedKschedLeavesThePreviousKeys : Obligations.RejectedKschedLeavesThePreviousKeys := by
  intro P e x y x' y' inp out hcount hv hxy
  have hksched : Transition e (.command 0x01) { e with OPQ := [], SHAPE := true } [⟨.shapeMismatch, []⟩] :=
    .mismatch .ksched (.inl hcount)
  have hx : Transition { e with OPQ := [], SHAPE := true } (.data x) { e with OPQ := [x], SHAPE := true } [] :=
    .staged x (by simp)
  have hy : Transition { e with OPQ := [x], SHAPE := true } (.data y) { e with OPQ := [x, y], SHAPE := true } [] :=
    .staged y (by simp)
  have henc : Transition { e with OPQ := [x, y], SHAPE := true } (.command 0x02)
      { e with OPQ := [], SHAPE := true, X := x', Y := y', RC := P.T } [⟨.ok, [x', y']⟩] :=
    .enc x y x' y' rfl hv hxy
  rw [run_succ_of_transition 3 _ out hksched, run_succ_of_transition 2 _ _ hx, run_succ_of_transition 1 _ _ hy,
    run_succ_of_transition 0 inp _ henc, run, List.append_nil, List.append_nil]

/-- Settles O22: the reset event takes the engine to a reset state. -/
theorem resetEventClearsFlagsAndQueue : Obligations.ResetEventClearsFlagsAndQueue :=
  fun _ e inp out => ⟨resetEngine e, step_reset e inp out, resetEngine_RKV e, resetEngine_SHAPE e, resetEngine_ILL e,
    resetEngine_OPQ e, resetEngine_RC_le e⟩

end Sys2Proof.Machine
